-- ==== Sys2Proof/Word.lean ====
section
/-! DEFINITION. The block's two data words: the 32-bit command word and the byte of the streams.

20_memory.md R51: `CMD` carries 32-bit words, `PKO` and `TXO` carry bytes. -/

namespace Sys2Proof

/-- One element of the stream `CMD` (30_encoding.md R70). -/
abbrev Word := BitVec 32

/-- A `u8`, the element of `PKO` and `TXO` (00_scope.md R11, 20_memory.md R51). -/
abbrev Byte := BitVec 8

/-- A `u16` operand field (00_scope.md R11, 30_encoding.md R70). -/
abbrev Half := BitVec 16

end Sys2Proof
end

