-- ==== Sys2Proof/Config.lean ====
section
/-! DEFINITION. The block's parameters, fixed before reset and changed by no operation
(00_scope.md R8, R9; 10_state.md R21).

The values are the source's literals, unaudited against a device (R8, 93_implementation_defined.md
U19; notes/assumptions/8.md, UNVERIFIED, unsafe). -/

namespace Sys2Proof

/-- The two device variants (00_scope.md R4). -/
inductive Variant where
  | classic
  | max
  deriving DecidableEq, Repr, Inhabited

/-- What the Bit-Packer does with a palette of one colour (00_scope.md R9, 40_packer.md R103). -/
inductive K1Policy where
  /-- Pack with width 1. -/
  | minWidth1
  /-- Raise `SingleColor`. -/
  | reject
  deriving DecidableEq, Repr, Inhabited

namespace Config

/-- `MAXPAL(v)`, the largest palette size accepted (00_scope.md R8). -/
def maxPal : Variant → Nat
  | .classic => 16
  | .max => 256

/-- `GRID(v)`, the grid side; not checked by the block (00_scope.md R8, 40_packer.md R109). -/
def grid : Variant → Nat
  | .classic => 16
  | .max => 32

/-- `START`, first byte of a wire frame (00_scope.md R8). -/
def startByte : Byte := 0x01

/-- `END`, last byte of a wire frame (00_scope.md R8). -/
def endByte : Byte := 0x02

/-- `LEN_OVERHEAD`, the command byte and the two checksum bytes (00_scope.md R8). -/
def lenOverhead : Nat := 3

/-- `LEN_MAX`, the largest value of the length field (00_scope.md R8). -/
def lenMax : Nat := 65535

/-- `CHUNK_MAX`, most payload bytes in one packet (00_scope.md R8). -/
def chunkMax : Nat := 200

/-- `CMD_ANIM`, the command byte that carries one packet (00_scope.md R8). -/
def cmdAnim : Byte := 0x49

/-- `CMD_PIC`, the command byte of a still picture (00_scope.md R8). -/
def cmdPic : Byte := 0x44

/-- The command byte "set system brightness" (30_encoding.md R85). -/
def cmdBrightness : Byte := 0x74

/-- The command byte "set box mode" (30_encoding.md R85). -/
def cmdBoxMode : Byte := 0x45

/-- The command byte "set RGB color" (30_encoding.md R85). -/
def cmdRgb : Byte := 0x6F

/-- The four bytes before a still picture's SubFrame (43_pseudo_ops.md R178). -/
def picLead : List Byte := [0x00, 0x0A, 0x0A, 0x04]

/-- `CIDX_MAX`, the largest chunk index (00_scope.md R8). -/
def cidxMax : Nat := 255

/-- `PAYLOAD_MAX = CHUNK_MAX * (CIDX_MAX + 1)` (00_scope.md R8): 51200. -/
def payloadMax : Nat := chunkMax * (cidxMax + 1)

/-- `K1_POLICY`, which the source and the spec leave open (00_scope.md R9, 92_eei_decisions.md D9,
93_implementation_defined.md U1: "parameter"). No body: nothing can be proved of its value, so a
statement proved of the model holds for both (notes/assumptions/1.md, safe). -/
opaque k1Policy : K1Policy

end Config

end Sys2Proof
end

