-- ==== Sys2Proof/Machine/Bytes.lean ====
section
/-! DEFINITION. Bytes of numbers, sums of bytes and the integer logarithm (00_scope.md R11 to R14). -/

namespace Sys2Proof.Machine

/-- `lo8(x)` (00_scope.md R12). -/
def lo8 (x : Nat) : Byte := BitVec.ofNat 8 x

/-- `hi8(x)` (00_scope.md R12). -/
def hi8 (x : Nat) : Byte := BitVec.ofNat 8 (x / 256)

/-- `le16(x)`, low byte first (00_scope.md R13, 20_memory.md R54). -/
def le16 (x : Nat) : List Byte := [lo8 x, hi8 x]

/-- The value of a little-endian pair of bytes (20_memory.md R54). -/
def ofLe16 (lo hi : Byte) : Nat := lo.toNat + 256 * hi.toNat

/-- `sum(s)`, each byte taken as an unsigned value (00_scope.md R13, 30_encoding.md R82). -/
def byteSum : List Byte → Nat
  | [] => 0
  | b :: bs => b.toNat + byteSum bs

/-- `ceil(a / b)` (00_scope.md R11). -/
def ceilDiv (a b : Nat) : Nat := (a + b - 1) / b

/-- The first exponent from `b` on whose power of two reaches `k`, searched over `fuel` steps. -/
def clog2From (k : Nat) : Nat → Nat → Nat
  | 0, b => b
  | fuel + 1, b => if k ≤ 2 ^ b then b else clog2From k fuel (b + 1)

/-- `clog2(k)`, the smallest `b` with `2^b >= k` (00_scope.md R14). -/
def clog2 (k : Nat) : Nat := clog2From k k 0

/-- The bit a variant is encoded by: 0 Classic, 1 Max (92_eei_decisions.md D31, 10_state.md R25). -/
def variantBit : Variant → BitVec 1
  | .classic => 0
  | .max => 1

/-- The variant a bit stands for (10_state.md R25). -/
def variantOfBit (b : Bool) : Variant := if b then .max else .classic

end Sys2Proof.Machine
end

