-- ==== Sys2Proof/Machine/Functions.lean ====
section
/-! DEFINITION. The transaction level: the functions `PACK`, `FRAME`, `CHUNK` and `ANIM` from whole
inputs to whole outputs, which are what the source defines and are normative (00_scope.md R7).

The beat-level machine of the other files computes the same functions one word at a time; that they
agree (40_packer.md R118, 41_framer.md R140, 42_chunker.md R163) is stated in
Certificates/Slice0/Obligations.lean. -/

namespace Sys2Proof.Machine

/-- The block's fault causes (60_exceptions.md R211). -/
inductive Cause where
  | paletteOverflow
  | frameTooLarge
  | paletteEmpty
  | singleColor
  | indexRange
  | payloadTooLarge
  | sequenceError
  | illegalOp
  deriving DecidableEq, Repr, Inhabited

/-- A result at the transaction level: `ok(s)` or `fault(F)` (00_scope.md R16). -/
inductive Result (α : Type) where
  | ok (s : α)
  | fault (f : Cause)
  deriving DecidableEq, Repr

/-- The bytes or packets of a result, if it has any: a fault has none. -/
def Result.toOption {α : Type} : Result α → Option α
  | .ok s => some s
  | .fault _ => none

/-- The width of one index, or the palette fault: the checks of 40_packer.md R104 in their order,
then R103 for one colour, then R102. The policy for one colour is an argument (00_scope.md R9). -/
def widthOf (policy : K1Policy) (v : Variant) (k : Nat) : Result Nat :=
  if k = 0 then .fault .paletteEmpty
  else if Config.maxPal v < k then .fault .paletteOverflow
  else if k = 1 ∧ policy = .reject then .fault .singleColor
  else .ok (if k = 1 then 1 else clog2 k)

/-- `S`, the sum over `j` of `idx[j] * 2^(j*w)`: the first index in the lowest bits
(40_packer.md R105, 20_memory.md R56). -/
def bitString (w : Nat) : List Nat → Nat
  | [] => 0
  | x :: xs => x + 2 ^ w * bitString w xs

/-- The first `T div 8` output bytes, byte `m` holding bits `8*m+7` down to `8*m` of `S`
(40_packer.md R105, 20_memory.md R57). -/
def wholeBytes (t s : Nat) : List Byte :=
  (List.range (t / 8)).map fun m => BitVec.ofNat 8 (s / 2 ^ (8 * m))

/-- The tail policy for the `T mod 8` leftover bits: Max pads them into one byte, Classic drops
them; with none left neither emits (40_packer.md R106, R108). -/
def tailBytes (v : Variant) (t s : Nat) : List Byte :=
  match v with
  | .classic => []
  | .max => if t % 8 = 0 then [] else [BitVec.ofNat 8 (s / 2 ^ (8 * (t / 8)))]

/-- The output bytes of a stream of indices at width `w` (40_packer.md R105, R106). -/
def packBytes (v : Variant) (w : Nat) (idx : List Nat) : List Byte :=
  wholeBytes (idx.length * w) (bitString w idx) ++ tailBytes v (idx.length * w) (bitString w idx)

/-- `PACK(v, k, idx)`: width, then the range check of 40_packer.md R113, then the bytes (R100). -/
def pack (policy : K1Policy) (v : Variant) (k : Nat) (idx : List Nat) : Result (List Byte) :=
  match widthOf policy v k with
  | .fault f => .fault f
  | .ok w => if ∃ i ∈ idx, k ≤ i then .fault .indexRange else .ok (packBytes v w idx)

/-- `cs`: the length bytes, the command byte and the argument bytes, summed modulo 65536
(30_encoding.md R82, 41_framer.md R133; 90_conflicts.md C1). -/
def checksum (c : Byte) (args : List Byte) : Nat :=
  (byteSum (le16 (args.length + Config.lenOverhead)) + c.toNat + byteSum args) % 65536

/-- The four bytes before the arguments of a frame with `n` of them (30_encoding.md R80). -/
def frameHeader (c : Byte) (n : Nat) : List Byte :=
  Config.startByte :: le16 (n + Config.lenOverhead) ++ [c]

/-- The trailer: checksum low, checksum high, `END` (00_scope.md R18, 30_encoding.md R80). -/
def frameTrailer (cs : Nat) : List Byte := le16 cs ++ [Config.endByte]

/-- The bytes of a wire frame with at most 65532 arguments (30_encoding.md R80, 41_framer.md R133). More
of them have no encoding (R81): `frame` answers a fault there, and these bytes are no frame. -/
def frameBytes (c : Byte) (args : List Byte) : List Byte :=
  frameHeader c args.length ++ args ++ frameTrailer (checksum c args)

/-- `FRAME(c, args)` (41_framer.md R130 to R133). -/
def frame (c : Byte) (args : List Byte) : Result (List Byte) :=
  if Config.lenMax < args.length + Config.lenOverhead then .fault .frameTooLarge
  else .ok (frameBytes c args)

/-- The three bytes before a packet's slice: `le16(P)` and the index (42_chunker.md R153). -/
def packetLead (size index : Nat) : List Byte := le16 size ++ [BitVec.ofNat 8 index]

/-- Slice `i` of a payload (42_chunker.md R152). -/
def sliceOf (p : List Byte) (i : Nat) : List Byte :=
  (p.drop (Config.chunkMax * i)).take Config.chunkMax

/-- Packet `i` of a payload (42_chunker.md R153). -/
def packetOf (p : List Byte) (i : Nat) : List Byte := packetLead p.length i ++ sliceOf p i

/-- The packets of a payload, `ceil(P / 200)` of them (42_chunker.md R151 to R154). -/
def packets (p : List Byte) : List (List Byte) :=
  (List.range (ceilDiv p.length Config.chunkMax)).map (packetOf p)

/-- `CHUNK(p)` (42_chunker.md R150 to R155). -/
def chunk (p : List Byte) : Result (List (List Byte)) :=
  if Config.payloadMax < p.length then .fault .payloadTooLarge else .ok (packets p)

/-- The frames of a payload's packets, one after the other (42_chunker.md R156). -/
def animBytes (p : List Byte) : List Byte := ((packets p).map (frameBytes Config.cmdAnim)).flatten

/-- `ANIM(p)` (42_chunker.md R156). -/
def anim (p : List Byte) : Result (List Byte) :=
  match chunk p with
  | .fault f => .fault f
  | .ok ks => .ok ((ks.map (frameBytes Config.cmdAnim)).flatten)

/-- `UNPACK(w, N, bytes)` (40_packer.md R115): a checking function, not an operation of the block. -/
def unpack (w n : Nat) (bytes : List Byte) : List Nat :=
  (List.range n).map fun j => (bitString 8 (bytes.map BitVec.toNat) / 2 ^ (j * w)) % 2 ^ w

/-- The payload slices of packets, concatenated in order (42_chunker.md R160): a checking function,
not an operation of the block. -/
def reassemble (ks : List (List Byte)) : List Byte := (ks.map (List.drop 3)).flatten

end Sys2Proof.Machine
end

