-- ==== Sys2Proof/Syntax.lean ====
section
/-! DEFINITION. The block's operations: one constructor for each row of spec/opcode_table.json.

The first seven are the operations of 30_encoding.md R72, the eighth stands for every other command
word (R75). The last seven are the table's wire formats and pseudo-operations: each stands for the
run of operations that 43_pseudo_ops.md expands it to (notes/assumptions/6.md, DEDUCED). -/

namespace Sys2Proof

/-- The operations of the opcode table, operands as 30_encoding.md R71 and 43_pseudo_ops.md give
them. -/
inductive Instr where
  /-- `PK.CFG v, k`: variant and palette size (40_packer.md R110). -/
  | pkCfg (v : Variant) (k : Half)
  /-- `PK.PUSH i`: one palette index (40_packer.md R111). -/
  | pkPush (i : Half)
  /-- `PK.END` (40_packer.md R112). -/
  | pkEnd
  /-- `FR.BEGIN c, n`: command byte and argument count (41_framer.md R137). -/
  | frBegin (c : Byte) (n : Half)
  /-- `FR.DATA b`: one argument byte (41_framer.md R138). -/
  | frData (b : Byte)
  /-- `CH.BEGIN P`: payload size (42_chunker.md R158). -/
  | chBegin (size : Half)
  /-- `CH.DATA b`: one payload byte (42_chunker.md R159). -/
  | chData (b : Byte)
  /-- A word that matches no row of 30_encoding.md R72 (R75). -/
  | illegal (w : Word)
  /-- `WIRE.FRAME`, written `FRAME c, [args]` (30_encoding.md R80, 43_pseudo_ops.md R173). -/
  | wireFrame (c : Byte) (args : List Byte)
  /-- `WIRE.PACKET`, one packet in its frame, written out by hand (30_encoding.md R86,
  43_pseudo_ops.md R179). -/
  | wirePacket (size : Half) (index : Byte) (slice : List Byte)
  /-- `SET_BRIGHTNESS level` (43_pseudo_ops.md R175). -/
  | setBrightness (level : Byte)
  /-- `SET_BOX_MODE mode, visual, submode` (43_pseudo_ops.md R176). -/
  | setBoxMode (mode visual submode : Byte)
  /-- `SET_RGB r, g, b` (43_pseudo_ops.md R177). -/
  | setRgb (r g b : Byte)
  /-- `DRAW_PICTURE [subFrame]` (43_pseudo_ops.md R178). -/
  | drawPicture (subFrame : List Byte)
  /-- `ANIM [payload]` (43_pseudo_ops.md R174). -/
  | anim (payload : List Byte)
  deriving DecidableEq, Repr, Inhabited

/-- A line of a program as it is written down, its operands still numbers of any size
(43_pseudo_ops.md R170). -/
inductive SourceLine where
  | pkCfg (v k : Nat)
  | pkPush (i : Nat)
  | pkEnd
  | frBegin (c n : Nat)
  | frData (b : Nat)
  | chBegin (size : Nat)
  | chData (b : Nat)
  deriving DecidableEq, Repr

/-- The row's mnemonic in spec/opcode_table.json (43_pseudo_ops.md R170 for the seven operations). -/
def Instr.mnemonic : Instr → String
  | .pkCfg _ _ => "PK.CFG"
  | .pkPush _ => "PK.PUSH"
  | .pkEnd => "PK.END"
  | .frBegin _ _ => "FR.BEGIN"
  | .frData _ => "FR.DATA"
  | .chBegin _ => "CH.BEGIN"
  | .chData _ => "CH.DATA"
  | .illegal _ => "(illegal)"
  | .wireFrame _ _ => "WIRE.FRAME"
  | .wirePacket _ _ _ => "WIRE.PACKET"
  | .setBrightness _ => "SET_BRIGHTNESS"
  | .setBoxMode _ _ _ => "SET_BOX_MODE"
  | .setRgb _ _ _ => "SET_RGB"
  | .drawPicture _ => "DRAW_PICTURE"
  | .anim _ => "ANIM"

end Sys2Proof
end

