-- ==== Sys2Proof/Decode.lean ====
section
/-! DEFINITION. Decoding and encoding.

First the 32-bit command word (30_encoding.md R70 to R75, 43_pseudo_ops.md R171 to R179), then the
wire forms that the opcode table gives in bytes. Decoding a command word is total and depends on
nothing but the word (R73); a word that is no operation is rejected by name, as `Instr.illegal`,
whose meaning raises `IllegalOp` (notes/assumptions/13.md, DEDUCED). -/

namespace Sys2Proof

open Machine

/-- `W[31:28]`, the field `OP` (30_encoding.md R70). -/
def opField (w : Word) : BitVec 4 := w.extractLsb' 28 4

/-- `W[27:24]`, the reserved field `Z` (30_encoding.md R70). -/
def zField (w : Word) : BitVec 4 := w.extractLsb' 24 4

/-- `W[23:16]`, the field `A` (30_encoding.md R70). -/
def aField (w : Word) : Byte := w.extractLsb' 16 8

/-- `W[15:0]`, the field `B` (30_encoding.md R70). -/
def bField (w : Word) : Half := w.extractLsb' 0 16

/-- `W[7:0]`, the byte operand of the data operations (30_encoding.md R71). -/
def byteField (w : Word) : Byte := w.extractLsb' 0 8

/-- `W[16]` as a variant (30_encoding.md R71). -/
def variantField (w : Word) : Variant := variantOfBit (w.getLsbD 16)

/-- The rows of 30_encoding.md R72: mnemonic, mask and match. -/
def opcodeRows : List (String × Word × Word) :=
  [("PK.CFG", 0xFFFE0000, 0x10000000),
   ("PK.PUSH", 0xFFFF0000, 0x20000000),
   ("PK.END", 0xFFFFFFFF, 0x30000000),
   ("FR.BEGIN", 0xFF000000, 0x40000000),
   ("FR.DATA", 0xFFFFFF00, 0x50000000),
   ("CH.BEGIN", 0xFFFF0000, 0x60000000),
   ("CH.DATA", 0xFFFFFF00, 0x70000000)]

/-- `W & Mask = Match` (30_encoding.md R72). -/
def matchesRow (w : Word) (row : String × Word × Word) : Bool := w &&& row.2.1 == row.2.2

/-- The operation a command word is (30_encoding.md R71 to R75). -/
def decode (w : Word) : Instr :=
  if w &&& 0xFFFE0000 = 0x10000000 then .pkCfg (variantField w) (bField w)
  else if w &&& 0xFFFF0000 = 0x20000000 then .pkPush (bField w)
  else if w &&& 0xFFFFFFFF = 0x30000000 then .pkEnd
  else if w &&& 0xFF000000 = 0x40000000 then .frBegin (aField w) (bField w)
  else if w &&& 0xFFFFFF00 = 0x50000000 then .frData (byteField w)
  else if w &&& 0xFFFF0000 = 0x60000000 then .chBegin (bField w)
  else if w &&& 0xFFFFFF00 = 0x70000000 then .chData (byteField w)
  else .illegal w

/-- The word of `PK.CFG v, k` (30_encoding.md R71, R72). -/
def wordPkCfg (v : Variant) (k : Half) : Word := 0x1#4 ++ 0#11 ++ variantBit v ++ k

/-- The word of `PK.PUSH i` (30_encoding.md R71, R72). -/
def wordPkPush (i : Half) : Word := 0x2#4 ++ 0#12 ++ i

/-- The word of `PK.END` (30_encoding.md R71, R72). -/
def wordPkEnd : Word := 0x3#4 ++ 0#28

/-- The word of `FR.BEGIN c, n` (30_encoding.md R71, R72). -/
def wordFrBegin (c : Byte) (n : Half) : Word := 0x4#4 ++ 0#4 ++ c ++ n

/-- The word of `FR.DATA b` (30_encoding.md R71, R72). -/
def wordFrData (b : Byte) : Word := 0x5#4 ++ 0#20 ++ b

/-- The word of `CH.BEGIN P` (30_encoding.md R71, R72). -/
def wordChBegin (size : Half) : Word := 0x6#4 ++ 0#12 ++ size

/-- The word of `CH.DATA b` (30_encoding.md R71, R72). -/
def wordChData (b : Byte) : Word := 0x7#4 ++ 0#20 ++ b

/-- The argument bytes of a packet written out by hand (43_pseudo_ops.md R179). -/
def packetArgs (size : Half) (index : Byte) (slice : List Byte) : List Byte :=
  packetLead size.toNat index.toNat ++ slice

/-- `FRAME c, [args]` as operations (43_pseudo_ops.md R173). -/
def expandFrame (c : Byte) (args : List Byte) : List Instr :=
  .frBegin c (BitVec.ofNat 16 args.length) :: args.map .frData

/-- `ANIM [p]` as operations (43_pseudo_ops.md R174). -/
def expandAnim (p : List Byte) : List Instr :=
  .chBegin (BitVec.ofNat 16 p.length) :: p.map .chData

/-- `PACK v, k, [idx]` as operations (43_pseudo_ops.md R172). The pseudo-operation has no row in the
opcode table, so it is a program and no constructor. -/
def expandPack (v : Variant) (k : Half) (idx : List Half) : List Instr :=
  .pkCfg v k :: idx.map .pkPush ++ [.pkEnd]

/-- The operations a pseudo-operation expands to (43_pseudo_ops.md R173 to R179); an operation
expands to itself. -/
def expand : Instr → List Instr
  | .wireFrame c args => expandFrame c args
  | .wirePacket size index slice => expandFrame Config.cmdAnim (packetArgs size index slice)
  | .setBrightness level => expandFrame Config.cmdBrightness [level]
  | .setBoxMode mode visual submode => expandFrame Config.cmdBoxMode [mode, visual, submode]
  | .setRgb r g b => expandFrame Config.cmdRgb [r, g, b]
  | .drawPicture subFrame => expandFrame Config.cmdPic (Config.picLead ++ subFrame)
  | .anim payload => expandAnim payload
  | .pkCfg v k => [.pkCfg v k]
  | .pkPush i => [.pkPush i]
  | .pkEnd => [.pkEnd]
  | .frBegin c n => [.frBegin c n]
  | .frData b => [.frData b]
  | .chBegin size => [.chBegin size]
  | .chData b => [.chData b]
  | .illegal w => [.illegal w]

/-- The words of `FRAME c, [args]` (43_pseudo_ops.md R171, R173). -/
def encodeFrame (c : Byte) (args : List Byte) : List Word :=
  wordFrBegin c (BitVec.ofNat 16 args.length) :: args.map wordFrData

/-- The words of `ANIM [p]` (43_pseudo_ops.md R171, R174). -/
def encodeAnim (p : List Byte) : List Word :=
  wordChBegin (BitVec.ofNat 16 p.length) :: p.map wordChData

/-- The words of `PACK v, k, [idx]` (43_pseudo_ops.md R171, R172). -/
def encodePack (v : Variant) (k : Half) (idx : List Half) : List Word :=
  wordPkCfg v k :: idx.map wordPkPush ++ [wordPkEnd]

/-- The command words of an instruction: one for an operation, the words of its expansion for a
pseudo-operation (43_pseudo_ops.md R171 to R179). -/
def encode : Instr → List Word
  | .pkCfg v k => [wordPkCfg v k]
  | .pkPush i => [wordPkPush i]
  | .pkEnd => [wordPkEnd]
  | .frBegin c n => [wordFrBegin c n]
  | .frData b => [wordFrData b]
  | .chBegin size => [wordChBegin size]
  | .chData b => [wordChData b]
  | .illegal w => [w]
  | .wireFrame c args => encodeFrame c args
  | .wirePacket size index slice => encodeFrame Config.cmdAnim (packetArgs size index slice)
  | .setBrightness level => encodeFrame Config.cmdBrightness [level]
  | .setBoxMode mode visual submode => encodeFrame Config.cmdBoxMode [mode, visual, submode]
  | .setRgb r g b => encodeFrame Config.cmdRgb [r, g, b]
  | .drawPicture subFrame => encodeFrame Config.cmdPic (Config.picLead ++ subFrame)
  | .anim payload => encodeAnim payload

/-- Assembling a written line: an operand outside its field is refused, one that fits its field is
not, even if the operation will fault on it (43_pseudo_ops.md R171). -/
def assemble : SourceLine → Option Instr
  | .pkCfg v k => if v ≤ 1 ∧ k ≤ 65535 then some (.pkCfg (variantOfBit (v == 1)) (BitVec.ofNat 16 k)) else none
  | .pkPush i => if i ≤ 65535 then some (.pkPush (BitVec.ofNat 16 i)) else none
  | .pkEnd => some .pkEnd
  | .frBegin c n => if c ≤ 255 ∧ n ≤ 65535 then some (.frBegin (BitVec.ofNat 8 c) (BitVec.ofNat 16 n)) else none
  | .frData b => if b ≤ 255 then some (.frData (BitVec.ofNat 8 b)) else none
  | .chBegin size => if size ≤ 65535 then some (.chBegin (BitVec.ofNat 16 size)) else none
  | .chData b => if b ≤ 255 then some (.chData (BitVec.ofNat 8 b)) else none

/-- The number 43_pseudo_ops.md R171 gives for a written line's command word. -/
def assembledNumber : SourceLine → Nat
  | .pkCfg v k => 0x10000000 + v * 0x10000 + k
  | .pkPush i => 0x20000000 + i
  | .pkEnd => 0x30000000
  | .frBegin c n => 0x40000000 + c * 0x10000 + n
  | .frData b => 0x50000000 + b
  | .chBegin size => 0x60000000 + size
  | .chData b => 0x70000000 + b

/-- Reading one complete wire frame: its command byte and arguments, if the start byte, the length,
the checksum and the end byte are those of a frame (30_encoding.md R80 to R83). A reader of the
block's output, not an operation of the block (notes/assumptions/11.md, DESIGN CHOICE). -/
def readFrame : List Byte → Option (Byte × List Byte)
  | start :: lo :: hi :: c :: rest =>
    let n := ofLe16 lo hi - Config.lenOverhead
    match rest.drop n with
    | [csLo, csHi, stop] =>
      if start = Config.startByte ∧ stop = Config.endByte ∧ Config.lenOverhead ≤ ofLe16 lo hi ∧
          ofLe16 csLo csHi = checksum c (rest.take n) then
        some (c, rest.take n)
      else none
    | _ => none
  | _ => none

/-- Cutting a stream into frames by their length fields: a frame with length field `L` has `L + 4`
bytes (30_encoding.md R83). `fuel` bounds the number of frames. -/
def cutFrames : Nat → List Byte → Option (List (List Byte))
  | _, [] => some []
  | fuel + 1, a :: lo :: hi :: rest =>
    let size := ofLe16 lo hi + 4
    if size ≤ (a :: lo :: hi :: rest).length then
      (cutFrames fuel ((a :: lo :: hi :: rest).drop size)).map
        (fun fs => (a :: lo :: hi :: rest).take size :: fs)
    else none
  | _, _ => none

/-- Reading a packet: total size, index, slice (30_encoding.md R86). -/
def readPacket : List Byte → Option (Half × Byte × List Byte)
  | lo :: hi :: index :: slice => some (BitVec.ofNat 16 (ofLe16 lo hi), index, slice)
  | _ => none

/-- A packet's slice has the length the format gives it: `1 <= m` and `m = min(200, P - 200*i)`
(30_encoding.md R86). -/
def packetFits (size : Half) (index : Byte) (slice : List Byte) : Bool :=
  0 < slice.length && slice.length == min Config.chunkMax (size.toNat - Config.chunkMax * index.toNat)

/-- The row of the opcode table that a frame with this command byte and these arguments is: the known
commands of 30_encoding.md R85 where the arguments have their shape, else a plain frame. -/
def knownCommand (c : Byte) (args : List Byte) : Instr :=
  if c = Config.cmdBrightness then
    match args with
    | [level] => .setBrightness level
    | _ => .wireFrame c args
  else if c = Config.cmdBoxMode then
    match args with
    | [mode, visual, submode] => .setBoxMode mode visual submode
    | _ => .wireFrame c args
  else if c = Config.cmdRgb then
    match args with
    | [r, g, b] => .setRgb r g b
    | _ => .wireFrame c args
  else if c = Config.cmdPic then
    if args.take 4 = Config.picLead then .drawPicture (args.drop 4) else .wireFrame c args
  else if c = Config.cmdAnim then
    match readPacket args with
    | some (size, index, slice) =>
      if packetFits size index slice then .wirePacket size index slice else .wireFrame c args
    | none => .wireFrame c args
  else .wireFrame c args

/-- The wire row that the bytes of one frame are (30_encoding.md R80 to R89). -/
def decodeWire (bytes : List Byte) : Option Instr :=
  (readFrame bytes).map fun f => knownCommand f.1 f.2

/-- The payload slices of a run of packet frames, if they are the packets `i, i+1, ...` of a payload
of `size` bytes (42_chunker.md R160). -/
def readSlices (size : Nat) : Nat → List (List Byte) → Option (List Byte)
  | _, [] => some []
  | i, f :: fs =>
    match readFrame f with
    | some (c, lo :: hi :: index :: slice) =>
      if c = Config.cmdAnim ∧ ofLe16 lo hi = size ∧ index.toNat = i then
        (readSlices size (i + 1) fs).map (slice ++ ·)
      else none
    | _ => none

/-- The animation whose packet frames the bytes are (42_chunker.md R156, R160). -/
def decodeAnim (bytes : List Byte) : Option Instr :=
  match cutFrames bytes.length bytes with
  | none => none
  | some fs =>
    let size := (fs.map List.length).sum - 10 * fs.length
    match readSlices size 0 fs with
    | some p => if p.length = size ∧ animBytes p = bytes then some (.anim p) else none
    | none => none

/-- The wire bytes of one packet: the frame of its size, index and slice. A slice of another length than
the format gives it makes no packet (30_encoding.md R86, R87). -/
def encodePacket (size : Half) (index : Byte) (slice : List Byte) : Option (List Byte) :=
  if packetFits size index slice then (frame Config.cmdAnim (packetArgs size index slice)).toOption
  else none

/-- The bytes a wire row stands for, where it has an encoding (30_encoding.md R80 to R89): none with more
than 65532 arguments in a frame (R81), with a slice that is no packet's (R86), or with a payload above
51200 bytes (42_chunker.md R155). An operation of the command word has none. -/
def encodeWire : Instr → Option (List Byte)
  | .wireFrame c args => (frame c args).toOption
  | .wirePacket size index slice => encodePacket size index slice
  | .setBrightness level => (frame Config.cmdBrightness [level]).toOption
  | .setBoxMode mode visual submode => (frame Config.cmdBoxMode [mode, visual, submode]).toOption
  | .setRgb r g b => (frame Config.cmdRgb [r, g, b]).toOption
  | .drawPicture subFrame => (frame Config.cmdPic (Config.picLead ++ subFrame)).toOption
  | .anim payload => (anim payload).toOption
  | .pkCfg _ _ => none
  | .pkPush _ => none
  | .pkEnd => none
  | .frBegin _ _ => none
  | .frData _ => none
  | .chBegin _ => none
  | .chData _ => none
  | .illegal _ => none

/-- The `n` bytes of a number, the first the least significant. -/
def bytesOfNat (n w : Nat) : List Byte :=
  (List.range n).map fun j => BitVec.ofNat 8 (w / 2 ^ (8 * j))

/-- The instruction read from the bits `w` of an opcode-table row of `nbits` bits. Up to 32 bits it
is a command word, its bit 0 the word's bit 0 (30_encoding.md R70); a longer row is a wire form, its
first byte in the lowest bits (notes/assumptions/11.md). -/
def decodeTableWord (nbits w : Nat) : Option Instr :=
  if nbits ≤ 32 then some (decode (BitVec.ofNat 32 w)) else decodeWire (bytesOfNat (nbits / 8) w)

end Sys2Proof
end

