-- ==== Sys2Proof/Machine/State.lean ====
section
/-! DEFINITION. The architectural state: the thirteen registers of 10_state.md R20, the record of the
two output streams, and the host's events that are still to come (20_memory.md R51). -/

namespace Sys2Proof.Machine

/-- The register `MODE` (10_state.md R22). The values 5 to 7 never occur, so the type has none
(93_implementation_defined.md U22). -/
inductive Mode where
  | idle
  | pack
  | frame
  | chunk
  | fault
  deriving DecidableEq, Repr, Inhabited

/-- What the host puts in front of the block: a word on `CMD` or a request on `RST` (10_state.md R36).
Both stand in one total order (70_reset_and_hazards.md R240). -/
inductive Input where
  | word (w : Word)
  | reset
  deriving DecidableEq, Repr, Inhabited

/-- Why the machine stops. The eight faults of 60_exceptions.md are NOT here: taking one is a next
state (R218). -/
inductive Fault where
  /-- A register would have to hold a number outside its width, where no rule says `mod`
  (00_scope.md R11: nothing wraps). Raised by `PK.PUSH`, `FR.DATA`, `CH.DATA` and by no other
  operation, only in states that 10_state.md R42 excludes, so in no run from reset. Safe: the model
  stops where the spec gives no value (notes/assumptions/4.md, DEDUCED). -/
  | registerRange
  deriving DecidableEq, Repr, Inhabited

/-- Why an instruction has no meaning. -/
inductive Refusal where
  /-- Not modelled yet. Raised by exec for an arm without a meaning; no arm is left. Safe. -/
  | notModelled (mnemonic : String)
  /-- A pseudo-operation whose byte list is longer than its count operand can say: its expansion does
  not exist and the assembler must refuse it (43_pseudo_ops.md R173). Raised by `WIRE.FRAME`,
  `WIRE.PACKET`, `DRAW_PICTURE` and `ANIM` on more than 65535 bytes. Safe
  (notes/assumptions/7.md, DEDUCED). -/
  | noExpansion
  deriving DecidableEq, Repr, Inhabited

/-- The state of the block (10_state.md R20; 20_memory.md R51). -/
structure State where
  /-- `MODE` (R22). -/
  mode : Mode
  /-- `FCAUSE`, 4 bits (R23). -/
  fcause : BitVec 4
  /-- `FWORD`, 32 bits (R24). -/
  fword : Word
  /-- `VARIANT`, 1 bit (R25). -/
  variant : Variant
  /-- `PSIZE`, 9 bits (R26). -/
  psize : BitVec 9
  /-- `WIDTH`, 4 bits (R27). -/
  width : BitVec 4
  /-- `ACC`, 15 bits (R28). -/
  acc : BitVec 15
  /-- `NBITS`, 4 bits (R29). -/
  nbits : BitVec 4
  /-- `CSUM`, 16 bits (R30). -/
  csum : BitVec 16
  /-- `FREM`, 16 bits (R31). -/
  frem : BitVec 16
  /-- `CTOTAL`, 16 bits (R33). -/
  ctotal : BitVec 16
  /-- `CREM`, 16 bits (R34). -/
  crem : BitVec 16
  /-- `CIDX`, 8 bits (R35). -/
  cidx : BitVec 8
  /-- The bytes emitted on `PKO` so far, in order; the block never reads them (20_memory.md R51). -/
  pko : List Byte
  /-- The bytes emitted on `TXO` so far, in order; the block never reads them (20_memory.md R51). -/
  txo : List Byte
  /-- The host's events not taken yet, the next one first. The MODEL's own field
  (notes/assumptions/2.md, DESIGN CHOICE). -/
  pending : List Input
  deriving DecidableEq, Repr, Inhabited

/-- The machine right after reset (10_state.md R43, R45). The streams are taken as empty
(notes/assumptions/10.md) and the host has offered nothing yet (notes/assumptions/2.md). -/
def State.reset : State where
  mode := .idle
  fcause := 0
  fword := 0
  variant := .classic
  psize := 0
  width := 0
  acc := 0
  nbits := 0
  csum := 0
  frem := 0
  ctotal := 0
  crem := 0
  cidx := 0
  pko := []
  txo := []
  pending := []

/-- What one step, or one operation, answers. -/
abbrev Out := Host.Outcome State Fault Refusal

end Sys2Proof.Machine
end

