-- ==== Sys2Proof/Machine/Ops.lean ====
section
/-! DEFINITION. The shared operations: the ports, taking a fault, reset, the template every operation
follows, and the internal procedures the Command Framer and the Chunker share. -/

namespace Sys2Proof.Machine

/-- The 3-bit value of `MODE` (10_state.md R22). -/
def modeCode : Mode → BitVec 3
  | .idle => 0
  | .pack => 1
  | .frame => 2
  | .chunk => 3
  | .fault => 4

/-- The code of a cause in `FCAUSE` (60_exceptions.md R211). -/
def causeCode : Cause → BitVec 4
  | .paletteOverflow => 1
  | .frameTooLarge => 2
  | .paletteEmpty => 3
  | .singleColor => 4
  | .indexRange => 5
  | .payloadTooLarge => 6
  | .sequenceError => 7
  | .illegalOp => 8

/-- What the port `STATUS` carries: `MODE`, `FCAUSE`, `FWORD` (10_state.md R36). Reading it has no
side effect (20_memory.md R61). The places of the three in one word are not given, so they stand side
by side (notes/assumptions/12.md). -/
def status (s : State) : BitVec 3 × BitVec 4 × Word := (modeCode s.mode, s.fcause, s.fword)

/-- `emit(PKO, b)` (20_memory.md R52). -/
def emitPko (b : Byte) (s : State) : State := { s with pko := s.pko ++ [b] }

/-- `emit(TXO, b)` for each of the bytes, in order (20_memory.md R52). -/
def emitTxo (bs : List Byte) (s : State) : State := { s with txo := s.txo ++ bs }

/-- TAKING A FAULT, `raise F(W)`: the whole effect of the step (60_exceptions.md R218). -/
def raise (f : Cause) (w : Word) (s : State) : State :=
  { s with mode := .fault, fcause := causeCode f, fword := w }

/-- The way back from a fault, the only one: the reset event writes every register to its reset value
and leaves the streams alone (70_reset_and_hazards.md R240, R242; 60_exceptions.md R220). -/
def resetRegisters (s : State) : State :=
  { State.reset with pko := s.pko, txo := s.txo, pending := s.pending }

/-- Go on with `f` where the machine has a next state; a stop stays a stop. -/
def andThen (o : Out) (f : State → Out) : Out :=
  match o with
  | .next s => f s
  | .fault r => .fault r
  | .refused r => .refused r

/-- One operation for each element of a list, in order (43_pseudo_ops.md R172 to R174). -/
def feed {α : Type} (op : α → State → Out) : List α → State → Out
  | [], s => .next s
  | x :: xs, s => andThen (op x s) (feed op xs)

/-- The template of every operation: ignored in `FAULT`, then admission, then the operation's own
operand checks and effect (60_exceptions.md R217, R219; 10_state.md R41). Decoding, which comes
between the two, has been done: the operation is known. -/
def inMode (m : Mode) (w : Word) (body : State → Out) (s : State) : Out :=
  if s.mode = .fault then .next s
  else if s.mode = m then body s
  else .next (raise .sequenceError w s)

/-- `frame_close()`: the trailer, and no register (41_framer.md R136). -/
def frameClose (s : State) : State := emitTxo (frameTrailer s.csum.toNat) s

/-- `frame_open(c, n)`, called with `n <= 65532` only (41_framer.md R134). -/
def frameOpen (c : Byte) (n : Nat) (s : State) : State :=
  let opened :=
    { emitTxo (frameHeader c n) s with
      csum := BitVec.ofNat 16 (byteSum (le16 (n + Config.lenOverhead)) + c.toNat)
      frem := BitVec.ofNat 16 n }
  if n = 0 then frameClose opened else opened

/-- `frame_byte(b)`, called with `FREM >= 1` only (41_framer.md R135). -/
def frameByte (b : Byte) (s : State) : State :=
  let taken :=
    { emitTxo [b] s with
      csum := BitVec.ofNat 16 (s.csum.toNat + b.toNat)
      frem := BitVec.ofNat 16 (s.frem.toNat - 1) }
  if taken.frem = 0 then frameClose taken else taken

/-- `chunk_open()`, called with `CREM >= 1` only (42_chunker.md R157). -/
def chunkOpen (s : State) : State :=
  frameByte s.cidx
    (frameByte (hi8 s.ctotal.toNat)
      (frameByte (lo8 s.ctotal.toNat)
        (frameOpen Config.cmdAnim (min Config.chunkMax s.crem.toNat + 3) s)))

/-- The host's next event and the state without it; none while the host offers nothing
(20_memory.md R52: taking the word is the step). -/
def takeInput (s : State) : Option (Input × State) :=
  match s.pending with
  | [] => none
  | i :: rest => some (i, { s with pending := rest })

/-- Put command words in front of the events still to come. -/
def offerWords (ws : List Word) (s : State) : State :=
  { s with pending := ws.map .word ++ s.pending }

end Sys2Proof.Machine
end

