-- ==== Sys2Proof/Machine/Operands.lean ====
section
/-! DEFINITION. The operand checks of the operations: each answers the fault its condition raises, if
it holds, before anything is written or emitted (60_exceptions.md R211, R214, R217). -/

namespace Sys2Proof.Machine

/-- The operand faults of `PK.CFG v, k`, in the order of 40_packer.md R104 and R110; otherwise the
width of one index (R102, R103). -/
def paletteWidth (v : Variant) (k : Half) : Result Nat := widthOf Config.k1Policy v k.toNat

/-- `i >= PSIZE`: the check is against the palette size and not against the width
(40_packer.md R113). -/
def indexOutOfRange (i : Half) (s : State) : Bool := Nat.ble s.psize.toNat i.toNat

/-- `n + 3 > 65535` (41_framer.md R132). -/
def frameTooLarge (n : Half) : Bool := Nat.blt Config.lenMax (n.toNat + Config.lenOverhead)

/-- `P > 51200` (42_chunker.md R155). -/
def payloadTooLarge (size : Half) : Bool := Nat.blt Config.payloadMax size.toNat

/-- A list of bytes longer than the count operand can say (43_pseudo_ops.md R173, R174). -/
def listTooLong (bs : List Byte) : Bool := Nat.blt 65535 bs.length

end Sys2Proof.Machine
end

