-- ==== Sys2Proof/Machine/Chunker.lean ====
section
/-! DEFINITION. The Chunker's operations `CH.BEGIN` and `CH.DATA` (42_chunker.md R158, R159). -/

namespace Sys2Proof.Machine

/-- Opening a chunking transaction of `size >= 1` bytes (42_chunker.md R158). -/
def openChunks (size : Half) (s : State) : State :=
  { chunkOpen { s with ctotal := size, crem := size, cidx := 0 } with mode := .chunk }

/-- What follows a payload byte: nothing inside a packet; at a packet's end the next packet, or
`IDLE` after the payload's last byte (42_chunker.md R159). The index never passes 255
(10_state.md R35); a 256th increment has no value to go to. -/
def afterPayloadByte (s : State) : Out :=
  if s.frem = 0 then
    if s.crem = 0 then .next { s with mode := .idle }
    else if s.cidx.toNat = Config.cidxMax then .fault .registerRange
    else .next (chunkOpen { s with cidx := BitVec.ofNat 8 (s.cidx.toNat + 1) })
  else .next s

/-- One payload byte (42_chunker.md R159). `FREM >= 1` and `CREM >= 1` while a packet is open
(10_state.md R42); without them the counts have no value to go to. -/
def takePayloadByte (b : Byte) (s : State) : Out :=
  if s.frem = 0 ∨ s.crem = 0 then .fault .registerRange
  else afterPayloadByte { frameByte b s with crem := BitVec.ofNat 16 (s.crem.toNat - 1) }

/-- `CH.BEGIN P` (42_chunker.md R158). -/
def execChBegin (size : Half) (s : State) : Out :=
  inMode .idle (wordChBegin size)
    (fun s =>
      if payloadTooLarge size then .next (raise .payloadTooLarge (wordChBegin size) s)
      else if size = 0 then .next s
      else .next (openChunks size s)) s

/-- `CH.DATA b` (42_chunker.md R159). -/
def execChData (b : Byte) (s : State) : Out := inMode .chunk (wordChData b) (takePayloadByte b) s

end Sys2Proof.Machine
end

