-- ==== Sys2Proof/Machine/Framer.lean ====
section
/-! DEFINITION. The Command Framer's operations `FR.BEGIN` and `FR.DATA` (41_framer.md R137, R138). -/

namespace Sys2Proof.Machine

/-- `FR.BEGIN c, n` (41_framer.md R137). -/
def execFrBegin (c : Byte) (n : Half) (s : State) : Out :=
  inMode .idle (wordFrBegin c n)
    (fun s =>
      if frameTooLarge n then .next (raise .frameTooLarge (wordFrBegin c n) s)
      else .next { frameOpen c n.toNat s with mode := if n = 0 then .idle else .frame }) s

/-- One argument byte of an open frame; the mode returns to `IDLE` with the last (41_framer.md R138).
`FREM >= 1` while a frame is open (10_state.md R42); without it the count has no value to go to. -/
def takeArgument (b : Byte) (s : State) : Out :=
  if s.frem = 0 then .fault .registerRange
  else if (frameByte b s).frem = 0 then .next { frameByte b s with mode := .idle }
  else .next (frameByte b s)

/-- `FR.DATA b` (41_framer.md R138). -/
def execFrData (b : Byte) (s : State) : Out := inMode .frame (wordFrData b) (takeArgument b) s

end Sys2Proof.Machine
end

