-- ==== Sys2Proof/Machine/IllegalWord.lean ====
section
/-! DEFINITION. A word that is no operation (30_encoding.md R75, 60_exceptions.md R212). -/

namespace Sys2Proof.Machine

/-- `(illegal)`: raises `IllegalOp` in every mode but `FAULT`, where it is ignored
(30_encoding.md R75; 60_exceptions.md R212, R217). -/
def execIllegal (w : Word) (s : State) : Out :=
  if s.mode = .fault then .next s else .next (raise .illegalOp w s)

end Sys2Proof.Machine
end

