-- ==== Sys2Proof/Machine/Packer.lean ====
section
/-! DEFINITION. The Bit-Packer's operations `PK.CFG`, `PK.PUSH`, `PK.END` (40_packer.md R110 to
R112). -/

namespace Sys2Proof.Machine

/-- The accumulator's update by one index in range: the index above the valid bits, and the whole byte
out as soon as there is one (40_packer.md R111, 20_memory.md R56, R57). A value the registers cannot
hold stops the machine; 10_state.md R42 excludes it. -/
def pushIndex (i : Nat) (s : State) : Out :=
  let acc := s.acc.toNat ||| i <<< s.nbits.toNat
  let nbits := s.nbits.toNat + s.width.toNat
  if 2 ^ 15 ≤ acc ∨ 16 ≤ nbits then .fault .registerRange
  else if 8 ≤ nbits then
    .next
      { emitPko (BitVec.ofNat 8 acc) s with
        acc := BitVec.ofNat 15 (acc >>> 8)
        nbits := BitVec.ofNat 4 (nbits - 8) }
  else .next { s with acc := BitVec.ofNat 15 acc, nbits := BitVec.ofNat 4 nbits }

/-- Opening a packing transaction with width `w` (40_packer.md R110). -/
def openPack (v : Variant) (k : Nat) (w : Nat) (s : State) : State :=
  { s with
    variant := v
    psize := BitVec.ofNat 9 k
    width := BitVec.ofNat 4 w
    acc := 0
    nbits := 0
    mode := .pack }

/-- The tail policy: Max with leftover bits emits them, zero-padded; Classic drops them
(40_packer.md R106, R112). -/
def emitTail (s : State) : State :=
  if s.nbits ≠ 0 ∧ s.variant = .max then emitPko (BitVec.ofNat 8 s.acc.toNat) s else s

/-- `PK.CFG v, k` (40_packer.md R110). -/
def execPkCfg (v : Variant) (k : Half) (s : State) : Out :=
  inMode .idle (wordPkCfg v k)
    (fun s =>
      match paletteWidth v k with
      | .fault f => .next (raise f (wordPkCfg v k) s)
      | .ok w => .next (openPack v k.toNat w s)) s

/-- `PK.PUSH i` (40_packer.md R111). -/
def execPkPush (i : Half) (s : State) : Out :=
  inMode .pack (wordPkPush i)
    (fun s =>
      if indexOutOfRange i s then .next (raise .indexRange (wordPkPush i) s)
      else pushIndex i.toNat s) s

/-- `PK.END` (40_packer.md R112). -/
def execPkEnd (s : State) : Out :=
  inMode .pack wordPkEnd
    (fun s => .next { emitTail s with acc := 0, nbits := 0, mode := .idle }) s

end Sys2Proof.Machine
end

