-- ==== Sys2Proof/Machine/Pseudo.lean ====
section
/-! DEFINITION. The wire rows and pseudo-operations of the opcode table: each is the run of operations
that 43_pseudo_ops.md expands it to, taken as one (notes/assumptions/6.md). The block itself takes
the words of the expansion, one a step. -/

namespace Sys2Proof.Machine

/-- `FRAME c, [args]`: `FR.BEGIN c, n` and one `FR.DATA` a byte (43_pseudo_ops.md R173). -/
def sendFrame (c : Byte) (args : List Byte) (s : State) : Out :=
  if listTooLong args then .refused .noExpansion
  else andThen (execFrBegin c (BitVec.ofNat 16 args.length) s) (feed execFrData args)

/-- `PACK v, k, [idx]`: `PK.CFG`, one `PK.PUSH` an index, `PK.END` (43_pseudo_ops.md R172). It has no
row in the opcode table. -/
def packImage (v : Variant) (k : Half) (idx : List Half) (s : State) : Out :=
  andThen (execPkCfg v k s) fun t => andThen (feed execPkPush idx t) execPkEnd

/-- `WIRE.FRAME` (30_encoding.md R80, 43_pseudo_ops.md R173). -/
def execWireFrame (c : Byte) (args : List Byte) (s : State) : Out := sendFrame c args s

/-- `WIRE.PACKET`: `FRAME 0x49, [lo8(P), hi8(P), i, ...]` (30_encoding.md R86, R87;
43_pseudo_ops.md R179). The framer looks at none of the bytes (41_framer.md R131). -/
def execWirePacket (size : Half) (index : Byte) (slice : List Byte) (s : State) : Out :=
  sendFrame Config.cmdAnim (packetArgs size index slice) s

/-- `SET_BRIGHTNESS level` (43_pseudo_ops.md R175). -/
def execSetBrightness (level : Byte) (s : State) : Out := sendFrame Config.cmdBrightness [level] s

/-- `SET_BOX_MODE mode, visual, submode` (43_pseudo_ops.md R176). -/
def execSetBoxMode (mode visual submode : Byte) (s : State) : Out :=
  sendFrame Config.cmdBoxMode [mode, visual, submode] s

/-- `SET_RGB r, g, b` (43_pseudo_ops.md R177). -/
def execSetRgb (r g b : Byte) (s : State) : Out := sendFrame Config.cmdRgb [r, g, b] s

/-- `DRAW_PICTURE [subFrame]` (43_pseudo_ops.md R178). -/
def execDrawPicture (subFrame : List Byte) (s : State) : Out :=
  sendFrame Config.cmdPic (Config.picLead ++ subFrame) s

/-- `ANIM [payload]`: `CH.BEGIN P` and one `CH.DATA` a byte (43_pseudo_ops.md R174). -/
def execAnim (payload : List Byte) (s : State) : Out :=
  if listTooLong payload then .refused .noExpansion
  else andThen (execChBegin (BitVec.ofNat 16 payload.length) s) (feed execChData payload)

end Sys2Proof.Machine
end

