-- ==== Sys2Proof/Machine/Dispatch.lean ====
section
/-! DEFINITION. One arm for each row of the opcode table, one meaning for each arm. -/

namespace Sys2Proof.Machine

open Sys2Proof

def exec (i : Instr) (s : State) : Host.Outcome State Fault Refusal :=
  match i with
  | .pkCfg v k => Sys2Proof.Machine.execPkCfg v k s
  | .pkPush index => Sys2Proof.Machine.execPkPush index s
  | .pkEnd => Sys2Proof.Machine.execPkEnd s
  | .frBegin c n => Sys2Proof.Machine.execFrBegin c n s
  | .frData b => Sys2Proof.Machine.execFrData b s
  | .chBegin size => Sys2Proof.Machine.execChBegin size s
  | .chData b => Sys2Proof.Machine.execChData b s
  | .illegal w => Sys2Proof.Machine.execIllegal w s
  | .wireFrame c args => Sys2Proof.Machine.execWireFrame c args s
  | .wirePacket size index slice => Sys2Proof.Machine.execWirePacket size index slice s
  | .setBrightness level => Sys2Proof.Machine.execSetBrightness level s
  | .setBoxMode mode visual submode => Sys2Proof.Machine.execSetBoxMode mode visual submode s
  | .setRgb r g b => Sys2Proof.Machine.execSetRgb r g b s
  | .drawPicture subFrame => Sys2Proof.Machine.execDrawPicture subFrame s
  | .anim payload => Sys2Proof.Machine.execAnim payload s

end Sys2Proof.Machine
end

