-- ==== Sys2Proof/Machine/Step.lean ====
section
/-! DEFINITION. One step: the block takes the host's next event (00_scope.md R18, 20_memory.md R52). -/

namespace Sys2Proof.Machine

/-- A command word is decoded and executed; a reset request resets; while the host offers nothing the
block waits and nothing changes (70_reset_and_hazards.md R240, R241, R247; notes/assumptions/3.md). -/
def step (s : State) : Host.Outcome State Fault Refusal :=
  match takeInput s with
  | none => .next s
  | some (.reset, rest) => .next (resetRegisters rest)
  | some (.word w, rest) => exec (decode w) rest

/-- The instruction of `decodeTableWord` put where the next step takes it: its command word before the
events still to come. A wire row has no single word; the words of its expansion are put there, and the
next step takes the first (notes/assumptions/5.md, 11.md). -/
def State.withFetchWord (s : State) (nbits w : Nat) : State :=
  match Sys2Proof.decodeTableWord nbits w with
  | some i => offerWords (encode i) s
  | none => s

end Sys2Proof.Machine
end

