-- ==== Sys2Proof/WellFormed.lean ====
section
/-! DEFINITION. Which instructions can be written down.

The operands of the seven operations are fields of the command word and cannot be out of range
(30_encoding.md R71). The checks left are: an illegal word is one that no row matches (R75), and a
list fits the count that its first word carries (43_pseudo_ops.md R173, R174). -/

namespace Sys2Proof

open Machine

/-- The largest count a 16-bit operand can carry (30_encoding.md R71, 43_pseudo_ops.md R173). -/
def maxCount : Nat := 65535

/-- The instruction has command words, and they are its own. -/
def Instr.wellFormed : Instr → Bool
  | .illegal w => !(opcodeRows.any (matchesRow w))
  | .wireFrame _ args => args.length ≤ maxCount
  | .wirePacket size index slice => packetFits size index slice
  | .drawPicture subFrame => subFrame.length + 4 ≤ maxCount
  | .anim payload => payload.length ≤ maxCount
  | .pkCfg _ _ => true
  | .pkPush _ => true
  | .pkEnd => true
  | .frBegin _ _ => true
  | .frData _ => true
  | .chBegin _ => true
  | .chData _ => true
  | .setBrightness _ => true
  | .setBoxMode _ _ _ => true
  | .setRgb _ _ _ => true

/-- The instruction is one command word: one of the seven operations, or an illegal word. -/
def Instr.isOperation : Instr → Bool
  | .pkCfg _ _ => true
  | .pkPush _ => true
  | .pkEnd => true
  | .frBegin _ _ => true
  | .frData _ => true
  | .chBegin _ => true
  | .chData _ => true
  | .illegal _ => true
  | .wireFrame _ _ => false
  | .wirePacket _ _ _ => false
  | .setBrightness _ => false
  | .setBoxMode _ _ _ => false
  | .setRgb _ _ _ => false
  | .drawPicture _ => false
  | .anim _ => false

end Sys2Proof
end

