-- ==== Sys2Proof/Safety.lean ====
section
/-! DEFINITION. The terms statements are made in: the invariant of 10_state.md R42, the fault a word
raises (60_exceptions.md R217), the end of a run (70_reset_and_hazards.md R255), and what a stream of
complete outputs is (20_memory.md R68). None of them is used by the machine. -/

namespace Sys2Proof.Machine

/-- The invariants between steps, clause by clause (10_state.md R42). The first clause there, that
`MODE` has one of its five values, is the type of `MODE`. -/
structure Inv (s : State) : Prop where
  /-- `FCAUSE = 0` and `FWORD = 0` unless `MODE = FAULT`. -/
  noFault : s.mode ≠ .fault → s.fcause = 0 ∧ s.fword = 0
  /-- `FCAUSE` in 1..8 when `MODE = FAULT`. -/
  faultCode : s.mode = .fault → 1 ≤ s.fcause.toNat ∧ s.fcause.toNat ≤ 8
  /-- `NBITS <= 7` and `ACC < 2^NBITS`. -/
  bits : s.nbits.toNat ≤ 7 ∧ s.acc.toNat < 2 ^ s.nbits.toNat
  /-- `1 <= PSIZE <= MAXPAL(VARIANT)` in `PACK`. -/
  palette : s.mode = .pack → 1 ≤ s.psize.toNat ∧ s.psize.toNat ≤ Config.maxPal s.variant
  /-- `1 <= WIDTH <= 8` in `PACK`, and which width. -/
  indexWidth : s.mode = .pack → 1 ≤ s.width.toNat ∧ s.width.toNat ≤ 8 ∧
    s.width.toNat = if s.psize.toNat = 1 then 1 else clog2 s.psize.toNat
  /-- `NBITS = 0` and `ACC = 0` in `IDLE`, `FRAME`, `CHUNK`; none of them is reached by a fault. -/
  quiet : s.mode = .idle ∨ s.mode = .frame ∨ s.mode = .chunk → s.nbits = 0 ∧ s.acc = 0
  /-- `1 <= FREM <= 65532` in `FRAME`. -/
  openFrame : s.mode = .frame → 1 ≤ s.frem.toNat ∧ s.frem.toNat ≤ 65532
  /-- `1 <= CREM <= CTOTAL <= 51200` in `CHUNK`. -/
  openPayload : s.mode = .chunk →
    1 ≤ s.crem.toNat ∧ s.crem.toNat ≤ s.ctotal.toNat ∧ s.ctotal.toNat ≤ Config.payloadMax
  /-- `CIDX` and `FREM` in `CHUNK` (90_conflicts.md C9). -/
  openPacket : s.mode = .chunk →
    1 ≤ s.frem.toNat ∧ s.frem.toNat ≤ Config.chunkMax ∧
    s.cidx.toNat = (s.ctotal.toNat - s.crem.toNat) / Config.chunkMax ∧
    s.frem.toNat + (s.ctotal.toNat - s.crem.toNat) % Config.chunkMax =
      min Config.chunkMax (s.ctotal.toNat - Config.chunkMax * s.cidx.toNat)

/-- The mode that admits an operation (60_exceptions.md R213); an illegal word and a pseudo-operation
have none of their own. -/
def admittingMode : Instr → Option Mode
  | .pkCfg _ _ => some .idle
  | .pkPush _ => some .pack
  | .pkEnd => some .pack
  | .frBegin _ _ => some .idle
  | .frData _ => some .frame
  | .chBegin _ => some .idle
  | .chData _ => some .chunk
  | .illegal _ => none
  | .wireFrame _ _ => none
  | .wirePacket _ _ _ => none
  | .setBrightness _ => none
  | .setBoxMode _ _ _ => none
  | .setRgb _ _ _ => none
  | .drawPicture _ => none
  | .anim _ => none

/-- The operand fault of an operation, from the table of 60_exceptions.md R211. -/
def operandFault (s : State) : Instr → Option Cause
  | .pkCfg v k =>
    if k.toNat = 0 then some .paletteEmpty
    else if k.toNat > Config.maxPal v then some .paletteOverflow
    else if k.toNat = 1 ∧ Config.k1Policy = .reject then some .singleColor
    else none
  | .pkPush i => if i.toNat ≥ s.psize.toNat then some .indexRange else none
  | .frBegin _ n => if n.toNat + 3 > 65535 then some .frameTooLarge else none
  | .chBegin size => if size.toNat > 51200 then some .payloadTooLarge else none
  | .pkEnd => none
  | .frData _ => none
  | .chData _ => none
  | .illegal _ => none
  | .wireFrame _ _ => none
  | .wirePacket _ _ _ => none
  | .setBrightness _ => none
  | .setBoxMode _ _ _ => none
  | .setRgb _ _ _ => none
  | .drawPicture _ => none
  | .anim _ => none

/-- The fault that a word raises in a state: the first check that fails, in the order of
60_exceptions.md R217. -/
def faultOf (w : Word) (s : State) : Option Cause :=
  if s.mode = .fault then none
  else if (opcodeRows.filter (matchesRow w)).length = 0 then some .illegalOp
  else if admittingMode (decode w) ≠ some s.mode then some .sequenceError
  else operandFault s (decode w)

/-- The mode an unfaulted step leads to, from the table of 10_state.md R41; no word decodes to a
pseudo-operation. -/
def modeAfter (s : State) : Instr → Mode
  | .pkCfg _ _ => .pack
  | .pkPush _ => .pack
  | .pkEnd => .idle
  | .frBegin _ n => if n.toNat > 0 then .frame else .idle
  | .frData _ => if s.frem.toNat > 1 then .frame else .idle
  | .chBegin size => if size.toNat > 0 then .chunk else .idle
  | .chData _ => if s.crem.toNat > 1 then .chunk else .idle
  | .illegal _ => .fault
  | .wireFrame _ _ => .idle
  | .wirePacket _ _ _ => .idle
  | .setBrightness _ => .idle
  | .setBoxMode _ _ _ => .idle
  | .setRgb _ _ _ => .idle
  | .drawPicture _ => .idle
  | .anim _ => .idle

/-- The outcome of a run (70_reset_and_hazards.md R255). -/
inductive RunOutcome where
  | finished
  | faulted
  | unfinished
  deriving DecidableEq, Repr

/-- Read from `MODE` after the last word (70_reset_and_hazards.md R255). -/
def runOutcome (s : State) : RunOutcome :=
  match s.mode with
  | .idle => .finished
  | .fault => .faulted
  | .pack => .unfinished
  | .frame => .unfinished
  | .chunk => .unfinished

/-- The machine takes a step: it neither faults nor refuses. -/
def Steps (s : State) : Prop := ∃ t, step s = .next t

/-- A concatenation of complete wire frames (20_memory.md R68, 30_encoding.md R80). -/
def WholeFrames (bytes : List Byte) : Prop :=
  ∃ fs : List (Byte × List Byte), (∀ f ∈ fs, f.2.length ≤ 65532) ∧
    bytes = (fs.map fun f => frameBytes f.1 f.2).flatten

/-- Complete frames, then one incomplete frame with command byte `c`: its header, the arguments given
so far, and no trailer; `FREM` counts the missing arguments and `CSUM` holds the sum so far
(20_memory.md R68, 41_framer.md R143). -/
def OneOpenFrame (c : Byte) (s : State) : Prop :=
  ∃ done args, WholeFrames done ∧ 1 ≤ s.frem.toNat ∧ args.length + s.frem.toNat ≤ 65532 ∧
    s.txo = done ++ frameHeader c (args.length + s.frem.toNat) ++ args ∧
    s.csum.toNat =
      (byteSum (le16 (args.length + s.frem.toNat + 3)) + c.toNat + byteSum args) % 65536

/-- What `TXO` is while no fault has been raised: complete frames, and in `FRAME` and `CHUNK` one
incomplete frame after them (20_memory.md R68). After a fault nothing is claimed. -/
def TxoShape (s : State) : Prop :=
  match s.mode with
  | .idle => WholeFrames s.txo
  | .pack => WholeFrames s.txo
  | .frame => ∃ c, OneOpenFrame c s
  | .chunk => OneOpenFrame Config.cmdAnim s
  | .fault => True

/-! What `PKO` is: the outputs of `PACK` on the images that the command words gave. -/

/-- A packing transaction as the host's words gave it: the operands of its `PK.CFG` and the indices of
its `PK.PUSH` words so far, in order (40_packer.md R118). -/
structure Image where
  variant : Variant
  size : Half
  indices : List Half
  deriving DecidableEq, Repr

/-- `PACK(v, k, idx)` on the transaction's operands (40_packer.md R100). -/
def Image.packed (im : Image) : Result (List Byte) :=
  pack Config.k1Policy im.variant im.size.toNat (im.indices.map BitVec.toNat)

/-- The packing transactions read off a run of words: those closed by `PK.END`, oldest first, and the
one still open. It is read from the words and not from the machine. -/
structure PackRecord where
  closed : List Image
  opened : Option Image
  deriving DecidableEq, Repr

/-- Before the first word. -/
def PackRecord.empty : PackRecord := { closed := [], opened := none }

/-- What one operation adds to the record: `PK.CFG` opens an image, `PK.PUSH` adds its index, `PK.END`
closes it (40_packer.md R110 to R112). -/
def PackRecord.take (r : PackRecord) : Instr → PackRecord
  | .pkCfg v k => { r with opened := some { variant := v, size := k, indices := [] } }
  | .pkPush i => { r with opened := r.opened.map fun im => { im with indices := im.indices ++ [i] } }
  | .pkEnd => { closed := r.closed ++ r.opened.toList, opened := none }
  | .frBegin _ _ => r
  | .frData _ => r
  | .chBegin _ => r
  | .chData _ => r
  | .illegal _ => r
  | .wireFrame _ _ => r
  | .wirePacket _ _ _ => r
  | .setBrightness _ => r
  | .setBoxMode _ _ _ => r
  | .setRgb _ _ _ => r
  | .drawPicture _ => r
  | .anim _ => r

/-- The packing transactions of a list of words (70_reset_and_hazards.md R255). -/
def packRecord (ws : List Word) : PackRecord :=
  ws.foldl (fun r w => r.take (decode w)) PackRecord.empty

/-- The bytes are the outputs of `PACK` on these images, one after the other, and `PACK` faults on none
of them (70_reset_and_hazards.md R255). -/
def WholeImages (images : List Image) (bytes : List Byte) : Prop :=
  ∃ outs : List (List Byte), images.map Image.packed = outs.map .ok ∧ bytes = outs.flatten

/-- The bytes a transaction has put out before its `PK.END`: the whole bytes of the bit string of its
indices so far at width `w` (40_packer.md R105, R118, R119). -/
def Image.bytesSoFar (im : Image) (w : Nat) : List Byte :=
  wholeBytes (im.indices.length * w) (bitString w (im.indices.map BitVec.toNat))

/-- The transaction's operands have raised no fault, and its width is `w` (40_packer.md R102, R103,
R113). -/
def Image.Accepted (im : Image) (w : Nat) : Prop :=
  widthOf Config.k1Policy im.variant im.size.toNat = .ok w ∧ ∀ i ∈ im.indices, i.toNat < im.size.toNat

/-- The packer's registers are those of this open transaction (40_packer.md R110, R118). -/
def Image.OpenIn (im : Image) (w : Nat) (s : State) : Prop :=
  s.variant = im.variant ∧ s.psize.toNat = im.size.toNat ∧ s.width.toNat = w ∧
  s.nbits.toNat = im.indices.length * w % 8 ∧
  s.acc.toNat =
    bitString w (im.indices.map BitVec.toNat) / 2 ^ (8 * (im.indices.length * w / 8))

/-- No packing transaction is open, and `PKO` holds the closed ones. -/
def PkoClosed (r : PackRecord) (s : State) : Prop := r.opened = none ∧ WholeImages r.closed s.pko

/-- What `PKO` is, given the transactions of the words so far: the outputs of the closed ones; in `PACK`
those and the whole bytes of the open one, whose operands and bits the packer's registers hold
(40_packer.md R118); in `FAULT` what was out before the fault, perhaps with the whole bytes of an
unfinished transaction (R119). -/
def PkoShape (r : PackRecord) (s : State) : Prop :=
  match s.mode with
  | .idle => PkoClosed r s
  | .frame => PkoClosed r s
  | .chunk => PkoClosed r s
  | .pack => ∃ im w done, r.opened = some im ∧ im.Accepted w ∧ im.OpenIn w s ∧
      WholeImages r.closed done ∧ s.pko = done ++ im.bytesSoFar w
  | .fault => PkoClosed r s ∨ ∃ im w done, r.opened = some im ∧ im.Accepted w ∧
      WholeImages r.closed done ∧ s.pko = done ++ im.bytesSoFar w

end Sys2Proof.Machine
end

