-- ==== Sys2Proof/Certificates/Slice0/Obligations.lean ====
section
/-! DEFINITION. The statements for the provers. Each docstring names the rule of spec/ it states. -/

open Sys2Proof Sys2Proof.Machine

/-! ## Reset, the step, the host's events -/

/-- 10_state.md R45: the reset state as a tuple, and that it meets every clause of R42. -/
def Obligations.ResetTupleMeetsInvariant : Prop :=
  (State.reset.mode, State.reset.fcause, State.reset.fword, variantBit State.reset.variant,
    State.reset.psize, State.reset.width, State.reset.acc, State.reset.nbits) =
      (Mode.idle, 0, 0, 0, 0, 0, 0, 0) ∧
  (State.reset.csum, State.reset.frem, State.reset.ctotal, State.reset.crem, State.reset.cidx) =
      (0, 0, 0, 0, 0) ∧
  Inv State.reset

/-- 70_reset_and_hazards.md R240: the reset event writes every register to its reset value, in any
mode, and nothing else leaves `FAULT`. -/
def Obligations.ResetEventAloneLeavesFault : Prop :=
  (∀ (s : State) (rest : List Input), s.pending = .reset :: rest →
    step s = .next { State.reset with pko := s.pko, txo := s.txo, pending := rest }) ∧
  (∀ s t : State, s.mode = .fault → step s = .next t → t.mode ≠ .fault →
    ∃ rest, s.pending = .reset :: rest)

/-- 20_memory.md R52 and the model's choice of log entries 2 and 3: a step takes the next event; a
command word is decoded and executed on the state without it; with no event the block waits. -/
def Obligations.StepRunsDecodedWord : Prop :=
  (∀ (s : State) (w : Word) (rest : List Input), s.pending = .word w :: rest →
    step s = exec (decode w) { s with pending := rest }) ∧
  (∀ s : State, s.pending = [] → step s = .next s)

/-! ## Encoding -/

/-- 30_encoding.md R72 and 95_test_vectors.md V-D: some words written out from the encoding table. -/
def Obligations.SpecWordsDecodeAsWritten : Prop :=
  decode 0b00010000000000010000000000000100#32 = .pkCfg .max 4 ∧
  decode 0b00100000000000000000000000000011#32 = .pkPush 3 ∧
  decode 0b00110000000000000000000000000000#32 = .pkEnd ∧
  decode 0b01000000011101000000000000000001#32 = .frBegin 0x74 1 ∧
  decode 0b01010000000000000000000000110010#32 = .frData 0x32 ∧
  decode 0b01100000000000000000000111000010#32 = .chBegin 450 ∧
  decode 0b01110000000000000000000010101010#32 = .chData 0xAA ∧
  decode 0b00010001000000000000000000000100#32 = .illegal 0x11000004

/-- Decode and encode agree: the words of every well-formed instruction decode to the operations it
expands to, with every operand at every value (30_encoding.md R71; 43_pseudo_ops.md R173 to R179). -/
def Obligations.DecodeOfEncodeIsExpansion : Prop :=
  ∀ i : Instr, i.wellFormed = true → (encode i).map decode = expand i

/-- No bit of a word is dropped: every word is the encoding of what it decodes to, which is one of the
seven operations or an illegal word (30_encoding.md R73, R74). -/
def Obligations.EncodeOfDecodeIsWord : Prop :=
  ∀ w : Word, encode (decode w) = [w] ∧ (decode w).isOperation = true ∧ (decode w).wellFormed = true

/-- 30_encoding.md R73: every word matches exactly one row of R72 and is that operation, with the
operands whose encoding it is, or matches none and is illegal; the rows are disjoint. -/
def Obligations.DecodeFollowsOpcodeRows : Prop :=
  ∀ w : Word,
    ((opcodeRows.filter (matchesRow w)).map (·.1) = [(decode w).mnemonic] ∧ decode w ≠ .illegal w ∧
      encode (decode w) = [w]) ∨
    (opcodeRows.filter (matchesRow w) = [] ∧ decode w = .illegal w)

/-- 43_pseudo_ops.md R171: a written line is refused exactly when an operand is outside its field, and
otherwise its word is the sum given there. -/
def Obligations.AssembledWordIsSum : Prop :=
  ∀ l : SourceLine,
    (assemble l = none ↔
      match l with
      | .pkCfg v k => 1 < v ∨ 65535 < k
      | .pkPush i => 65535 < i
      | .pkEnd => False
      | .frBegin c n => 255 < c ∨ 65535 < n
      | .frData b => 255 < b
      | .chBegin size => 65535 < size
      | .chData b => 255 < b) ∧
    ∀ i, assemble l = some i → ∃ w : Word, encode i = [w] ∧ w.toNat = assembledNumber l

/-- A complete frame can be read back by its length field (30_encoding.md R83): command byte and
arguments come out as they went in, with no escaping (R84). -/
def Obligations.FrameReadsBack : Prop :=
  ∀ (c : Byte) (args : List Byte), args.length ≤ 65532 → readFrame (frameBytes c args) = some (c, args)

/-- The wire rows of the opcode table are read back from their bytes as the rows they are
(30_encoding.md R85, R86, R89; the reading is the model's, log entry 11). Any frame gives its command
byte and arguments back. What has no encoding has no bytes: more than 65532 arguments (R81), a slice that
is no packet's (R86), a payload above 51200 bytes (42_chunker.md R155). -/
def Obligations.WireRowsReadBack : Prop :=
  (∀ level, (encodeWire (.setBrightness level)).bind decodeWire = some (.setBrightness level)) ∧
  (∀ m v u, (encodeWire (.setBoxMode m v u)).bind decodeWire = some (.setBoxMode m v u)) ∧
  (∀ r g b, (encodeWire (.setRgb r g b)).bind decodeWire = some (.setRgb r g b)) ∧
  (∀ sub, sub.length ≤ 65528 →
    (encodeWire (.drawPicture sub)).bind decodeWire = some (.drawPicture sub)) ∧
  (∀ size index slice, packetFits size index slice = true →
    (encodeWire (.wirePacket size index slice)).bind decodeWire = some (.wirePacket size index slice)) ∧
  (∀ c args, args.length ≤ 65532 →
    (encodeWire (.wireFrame c args)).bind readFrame = some (c, args)) ∧
  (∀ c args, 65532 < args.length → encodeWire (.wireFrame c args) = none) ∧
  (∀ sub, 65528 < sub.length → encodeWire (.drawPicture sub) = none) ∧
  (∀ size index slice, packetFits size index slice = false →
    encodeWire (.wirePacket size index slice) = none) ∧
  (∀ p, 51200 < p.length → encodeWire (.anim p) = none)

/-- The frames of an animation, cut by their length fields and read in index order, give the payload
back (30_encoding.md R83, 42_chunker.md R160). -/
def Obligations.AnimReadsBack : Prop :=
  ∀ p : List Byte, p.length ≤ 51200 → decodeAnim (animBytes p) = some (.anim p)

/-! ## The Bit-Packer's operations -/

/-- 40_packer.md R110 where the operands are accepted under either policy: the palette size is 2 up to
the variant's maximum. One colour is in `PkCfgPaletteFaults`. -/
def Obligations.PkCfgOpensPacking : Prop :=
  ∀ (v : Variant) (k : Half) (s : State), s.mode = .idle →
    2 ≤ k.toNat → k.toNat ≤ (match v with | .classic => 16 | .max => 256) →
    exec (.pkCfg v k) s = .next
      { s with
        variant := v
        psize := BitVec.ofNat 9 k.toNat
        width := BitVec.ofNat 4 (clog2 k.toNat)
        acc := 0
        nbits := 0
        mode := .pack }

/-- 40_packer.md R104 and R103 at `PK.CFG`: no palette, too large a palette, and one colour under the
policy that rejects it; each takes its fault and writes nothing else. -/
def Obligations.PkCfgPaletteFaults : Prop :=
  ∀ (v : Variant) (k : Half) (s : State), s.mode = .idle →
    (k.toNat = 0 → exec (.pkCfg v k) s = .next
      { s with mode := .fault, fcause := 3, fword := wordPkCfg v k }) ∧
    ((match v with | .classic => 16 | .max => 256) < k.toNat → exec (.pkCfg v k) s = .next
      { s with mode := .fault, fcause := 1, fword := wordPkCfg v k }) ∧
    (k.toNat = 1 → exec (.pkCfg v k) s =
      if Config.k1Policy = .reject then
        .next { s with mode := .fault, fcause := 4, fword := wordPkCfg v k }
      else .next { s with
        variant := v, psize := 1, width := 1, acc := 0, nbits := 0, mode := .pack })

/-- 00_scope.md R14: `clog2` is the smallest exponent whose power of two reaches `k`. -/
def Obligations.ClogIsSmallestExponent : Prop :=
  ∀ k : Nat, 1 ≤ k → k ≤ 2 ^ clog2 k ∧ ∀ b, k ≤ 2 ^ b → clog2 k ≤ b

/-- 40_packer.md R111 for an index in range: the index goes above the valid bits, and a whole byte
leaves on `PKO` as soon as there is one. The bounds of 10_state.md R42 are the premise. -/
def Obligations.PkPushStoresIndex : Prop :=
  ∀ (i : Half) (s : State), Inv s → s.mode = .pack → i.toNat < s.psize.toNat →
    exec (.pkPush i) s = .next
      (if 8 ≤ s.nbits.toNat + s.width.toNat then
        { s with
          pko := s.pko ++ [BitVec.ofNat 8 (s.acc.toNat + i.toNat * 2 ^ s.nbits.toNat)]
          acc := BitVec.ofNat 15 ((s.acc.toNat + i.toNat * 2 ^ s.nbits.toNat) / 256)
          nbits := BitVec.ofNat 4 (s.nbits.toNat + s.width.toNat - 8) }
      else
        { s with
          acc := BitVec.ofNat 15 (s.acc.toNat + i.toNat * 2 ^ s.nbits.toNat)
          nbits := BitVec.ofNat 4 (s.nbits.toNat + s.width.toNat) })

/-- 40_packer.md R113: the check is against the palette size, and nothing is stored or emitted. -/
def Obligations.PkPushRefusesIndexOutOfRange : Prop :=
  ∀ (i : Half) (s : State), s.mode = .pack → s.psize.toNat ≤ i.toNat →
    exec (.pkPush i) s = .next { s with mode := .fault, fcause := 5, fword := wordPkPush i }

/-- 40_packer.md R112, R106, R108: Max emits the leftover bits as one byte, Classic drops them, and
with none left neither emits. -/
def Obligations.PkEndAppliesTailPolicy : Prop :=
  ∀ s : State, s.mode = .pack →
    exec .pkEnd s = .next
      { s with
        pko := s.pko ++
          (if s.variant = .max ∧ 0 < s.nbits.toNat then [BitVec.ofNat 8 s.acc.toNat] else [])
        acc := 0
        nbits := 0
        mode := .idle }

/-- 40_packer.md R118. The words of a packing transaction, one a step, append to `PKO` exactly what
`PACK` returns; where it faults, the block has taken that fault at the word named there and ignored
the rest. And the state after `j` indices in range is that of their bit string. -/
def Obligations.PackTransactionComputesPack : Prop :=
  (∀ (v : Variant) (k : Half) (idx : List Half) (s : State) (rest : List Input), s.mode = .idle →
    s.pending = (encodePack v k idx).map .word ++ rest →
    ∃ t, Sys2Proof.core.run (idx.length + 2) s = .next t ∧ t.txo = s.txo ∧ t.pending = rest ∧
      match pack Config.k1Policy v k.toNat (idx.map BitVec.toNat) with
      | .ok bytes => t.pko = s.pko ++ bytes ∧ t.mode = .idle ∧ t.acc = 0 ∧ t.nbits = 0
      | .fault f => t.mode = .fault ∧ t.fcause = causeCode f ∧
          t.fword = (if f = .indexRange then
            ((idx.find? fun i => decide (k.toNat ≤ i.toNat)).map wordPkPush).getD 0
          else wordPkCfg v k)) ∧
  (∀ (v : Variant) (k : Half) (idx : List Half) (s : State) (w : Nat), s.mode = .idle →
    widthOf Config.k1Policy v k.toNat = .ok w → (∀ i ∈ idx, i.toNat < k.toNat) →
    andThen (exec (.pkCfg v k) s) (feed (fun i => exec (.pkPush i)) idx) = .next
      { s with
        mode := .pack
        variant := v
        psize := BitVec.ofNat 9 k.toNat
        width := BitVec.ofNat 4 w
        nbits := BitVec.ofNat 4 ((idx.length * w) % 8)
        acc := BitVec.ofNat 15
          (bitString w (idx.map BitVec.toNat) / 2 ^ (8 * ((idx.length * w) / 8)))
        pko := s.pko ++ wholeBytes (idx.length * w) (bitString w (idx.map BitVec.toNat)) })

/-- 40_packer.md R119: a packing transaction that faults at an index has emitted the whole bytes of
the indices before it, and no other byte. -/
def Obligations.FaultedPackKeepsEarlierBytes : Prop :=
  ∀ (v : Variant) (k i : Half) (before after : List Half) (w : Nat) (s : State) (rest : List Input),
    s.mode = .idle → widthOf Config.k1Policy v k.toNat = .ok w →
    (∀ x ∈ before, x.toNat < k.toNat) → k.toNat ≤ i.toNat →
    s.pending = (encodePack v k (before ++ i :: after)).map .word ++ rest →
    ∃ t, Sys2Proof.core.run (before.length + after.length + 3) s = .next t ∧
      t.mode = .fault ∧ t.fcause = 5 ∧ t.fword = wordPkPush i ∧
      t.pko = s.pko ++ wholeBytes (before.length * w) (bitString w (before.map BitVec.toNat)) ∧
      pack Config.k1Policy v k.toNat ((before ++ i :: after).map BitVec.toNat) = .fault .indexRange

/-- 40_packer.md R107: the length of the output, and that a full grid leaves no tail. -/
def Obligations.PackOutputLength : Prop :=
  (∀ (policy : K1Policy) (v : Variant) (k w : Nat) (idx : List Nat) (bytes : List Byte),
    widthOf policy v k = .ok w → pack policy v k idx = .ok bytes →
    bytes.length = match v with
      | .classic => idx.length * w / 8
      | .max => (idx.length * w + 7) / 8) ∧
  (∀ (v : Variant) (w : Nat), 1 ≤ w → w ≤ 8 → Config.grid v * Config.grid v * w % 8 = 0)

/-- 40_packer.md R115: unpacking gives the indices back for Max, and for Classic where no bits are
dropped; for Classic in general, the indices that are whole in the emitted bytes. -/
def Obligations.PackRoundTrip : Prop :=
  ∀ (policy : K1Policy) (v : Variant) (k w : Nat) (idx : List Nat) (bytes : List Byte),
    widthOf policy v k = .ok w → pack policy v k idx = .ok bytes →
    (v = .max ∨ idx.length * w % 8 = 0 → unpack w idx.length bytes = idx) ∧
    (v = .classic →
      unpack w (8 * (idx.length * w / 8) / w) bytes = idx.take (8 * (idx.length * w / 8) / w))

/-- 40_packer.md R116: the whole bytes of a shorter index stream begin those of a longer one. -/
def Obligations.WholeBytesGrowWithIndices : Prop :=
  ∀ (w : Nat) (xs ys : List Nat), (∀ x ∈ xs ++ ys, x < 2 ^ w) →
    wholeBytes (xs.length * w) (bitString w xs) <+:
      wholeBytes ((xs ++ ys).length * w) (bitString w (xs ++ ys))

/-- 40_packer.md R103, both policies: with width 1 every index is zero and the output is zero bytes;
with rejection no bytes come out. -/
def Obligations.SingleColorPolicies : Prop :=
  ∀ (v : Variant) (idx : List Nat),
    pack .reject v 1 idx = .fault .singleColor ∧
    ((∀ i ∈ idx, i = 0) → pack .minWidth1 v 1 idx = .ok (List.replicate
      (match v with | .classic => idx.length / 8 | .max => (idx.length + 7) / 8) 0)) ∧
    ((∃ i ∈ idx, i ≠ 0) → pack .minWidth1 v 1 idx = .fault .indexRange)

/-! ## The Command Framer's operations -/

/-- 41_framer.md R137 for an accepted count: header, checksum so far, and the whole frame at once when
there are no arguments. -/
def Obligations.FrBeginOpensFrame : Prop :=
  ∀ (c : Byte) (n : Half) (s : State), s.mode = .idle → n.toNat ≤ 65532 →
    exec (.frBegin c n) s = .next
      (let cs := (n.toNat + 3) % 256 + (n.toNat + 3) / 256 + c.toNat
      { s with
        txo := s.txo ++ [0x01, BitVec.ofNat 8 (n.toNat + 3), BitVec.ofNat 8 ((n.toNat + 3) / 256), c] ++
          (if n.toNat = 0 then [BitVec.ofNat 8 cs, BitVec.ofNat 8 (cs / 256), 0x02] else [])
        csum := BitVec.ofNat 16 cs
        frem := n
        mode := if n.toNat = 0 then .idle else .frame })

/-- 41_framer.md R132 and 42_chunker.md R155 at the opening operations: a count that the format cannot
carry takes its fault before any byte. -/
def Obligations.CountAboveLimitFaults : Prop :=
  (∀ (c : Byte) (n : Half) (s : State), s.mode = .idle → 65533 ≤ n.toNat →
    exec (.frBegin c n) s = .next
      { s with mode := .fault, fcause := 2, fword := wordFrBegin c n }) ∧
  (∀ (size : Half) (s : State), s.mode = .idle → 51201 ≤ size.toNat →
    exec (.chBegin size) s = .next
      { s with mode := .fault, fcause := 6, fword := wordChBegin size })

/-- 41_framer.md R138, with `FREM >= 1` as there (10_state.md R42): the byte goes out unchanged, the
checksum grows by it, and the last byte brings the trailer and `IDLE`. -/
def Obligations.FrDataPassesByte : Prop :=
  ∀ (b : Byte) (s : State), s.mode = .frame → 1 ≤ s.frem.toNat →
    exec (.frData b) s = .next
      (let cs := (s.csum.toNat + b.toNat) % 65536
      { s with
        txo := s.txo ++ [b] ++
          (if s.frem.toNat = 1 then [BitVec.ofNat 8 cs, BitVec.ofNat 8 (cs / 256), 0x02] else [])
        csum := BitVec.ofNat 16 cs
        frem := BitVec.ofNat 16 (s.frem.toNat - 1)
        mode := if s.frem.toNat = 1 then .idle else .frame })

/-- 41_framer.md R140: the words of a frame transaction, one a step, append to `TXO` exactly what
`FRAME` returns; a count above 65532 faults at `FR.BEGIN` and nothing is appended. -/
def Obligations.FrameTransactionComputesFrame : Prop :=
  (∀ (c : Byte) (args : List Byte) (s : State) (rest : List Input), s.mode = .idle →
    args.length ≤ 65535 → s.pending = (encodeFrame c args).map .word ++ rest →
    ∃ t, Sys2Proof.core.run (args.length + 1) s = .next t ∧ t.pko = s.pko ∧ t.pending = rest ∧
      match frame c args with
      | .ok bytes => t.txo = s.txo ++ bytes ∧ t.mode = .idle
      | .fault f => f = .frameTooLarge ∧ t.txo = s.txo ∧ t.mode = .fault ∧ t.fcause = 2) ∧
  (∀ (c : Byte) (args : List Byte), 65535 < args.length → frame c args = .fault .frameTooLarge)

/-- 41_framer.md R143: the state after `j` of the `n` argument bytes. -/
def Obligations.FrameStateAfterArguments : Prop :=
  ∀ (c : Byte) (n : Half) (given : List Byte) (s : State), s.mode = .idle →
    given.length < n.toNat → n.toNat ≤ 65532 →
    andThen (exec (.frBegin c n) s) (feed (fun b => exec (.frData b)) given) = .next
      { s with
        mode := .frame
        frem := BitVec.ofNat 16 (n.toNat - given.length)
        csum := BitVec.ofNat 16
          ((n.toNat + 3) % 256 + (n.toNat + 3) / 256 + c.toNat + byteSum given)
        txo := s.txo ++ [0x01, BitVec.ofNat 8 (n.toNat + 3), BitVec.ofNat 8 ((n.toNat + 3) / 256), c] ++
          given }

/-- 10_state.md R32: no value of `CSUM` or `FREM` left by an earlier frame is read when the next frame
is built: opening a frame, a whole frame, or a payload from `IDLE` gives the same whatever the two
registers held. -/
def Obligations.FrameIgnoresEarlierFrame : Prop :=
  ∀ (s : State) (cs fr : BitVec 16), s.mode = .idle →
    (∀ (c : Byte) (n : Half), n.toNat ≤ 65532 →
      exec (.frBegin c n) { s with csum := cs, frem := fr } = exec (.frBegin c n) s) ∧
    (∀ (c : Byte) (args : List Byte), args.length ≤ 65532 →
      exec (.wireFrame c args) { s with csum := cs, frem := fr } = exec (.wireFrame c args) s) ∧
    (∀ p : List Byte, 1 ≤ p.length → p.length ≤ 51200 →
      exec (.anim p) { s with csum := cs, frem := fr } = exec (.anim p) s)

/-- 41_framer.md R141: the checksum field of a frame is the sum of its bytes from offset 1 to `3 + n`,
and replacing any single byte from offset 1 to `5 + n` breaks that. -/
def Obligations.ChecksumFindsAnyOneByteChange : Prop :=
  ∀ (c : Byte) (args : List Byte), args.length ≤ 65532 →
    let sumOf (bytes : List Byte) := byteSum ((bytes.drop 1).take (args.length + 3)) % 65536
    let fieldOf (bytes : List Byte) :=
      ofLe16 (bytes.getD (args.length + 4) 0) (bytes.getD (args.length + 5) 0)
    sumOf (frameBytes c args) = fieldOf (frameBytes c args) ∧
    ∀ (j : Nat) (b : Byte), 1 ≤ j → j ≤ args.length + 5 → (frameBytes c args).getD j 0 ≠ b →
      sumOf ((frameBytes c args).set j b) ≠ fieldOf ((frameBytes c args).set j b)

/-- 41_framer.md R139: no frame of at most 255 arguments wraps the checksum, one of 256 does, and the
largest exact sum is 16711425: no frame's is above it, and the longest frame of bytes 0xFF reaches it. -/
def Obligations.ChecksumWrapsFrom256Arguments : Prop :=
  let exactSum (c : Byte) (args : List Byte) :=
    (args.length + 3) % 256 + (args.length + 3) / 256 + c.toNat + byteSum args
  (∀ (c : Byte) (args : List Byte), args.length ≤ 255 → checksum c args = exactSum c args) ∧
  checksum 0xFF (List.replicate 256 0xFF) = 3 ∧
  (∀ (c : Byte) (args : List Byte), args.length ≤ 65532 → exactSum c args ≤ 16711425) ∧
  exactSum 0xFF (List.replicate 65532 0xFF) = 16711425

/-! ## The wire rows and pseudo-operations -/

/-- 43_pseudo_ops.md R173: `FRAME c, [args]` from `IDLE` puts the frame on `TXO`, or takes
`FrameTooLarge`; a list too long for the count operand has no expansion and is refused. -/
def Obligations.WireFramePutsFrame : Prop :=
  ∀ (c : Byte) (args : List Byte) (s : State), s.mode = .idle →
    exec (.wireFrame c args) s =
      if args.length ≤ 65532 then .next
        { s with
          txo := s.txo ++ frameBytes c args
          csum := BitVec.ofNat 16 (checksum c args)
          frem := 0 }
      else if args.length ≤ 65535 then .next
        { s with
          mode := .fault
          fcause := 2
          fword := wordFrBegin c (BitVec.ofNat 16 args.length) }
      else .refused .noExpansion

/-- 43_pseudo_ops.md R175, R176, R177: the three fixed-size commands from `IDLE`, byte for byte. -/
def Obligations.FixedCommandsPutTheirFrames : Prop :=
  (∀ (level : Byte) (s : State), s.mode = .idle →
    exec (.setBrightness level) s = .next
      (let cs := 0x78 + level.toNat
      { s with
        txo := s.txo ++
          [0x01, 0x04, 0x00, 0x74, level, BitVec.ofNat 8 cs, BitVec.ofNat 8 (cs / 256), 0x02]
        csum := BitVec.ofNat 16 cs
        frem := 0 })) ∧
  (∀ (m v u : Byte) (s : State), s.mode = .idle →
    exec (.setBoxMode m v u) s = .next
      (let cs := 0x4B + m.toNat + v.toNat + u.toNat
      { s with
        txo := s.txo ++
          [0x01, 0x06, 0x00, 0x45, m, v, u, BitVec.ofNat 8 cs, BitVec.ofNat 8 (cs / 256), 0x02]
        csum := BitVec.ofNat 16 cs
        frem := 0 })) ∧
  (∀ (r g b : Byte) (s : State), s.mode = .idle →
    exec (.setRgb r g b) s = .next
      (let cs := 0x75 + r.toNat + g.toNat + b.toNat
      { s with
        txo := s.txo ++
          [0x01, 0x06, 0x00, 0x6F, r, g, b, BitVec.ofNat 8 cs, BitVec.ofNat 8 (cs / 256), 0x02]
        csum := BitVec.ofNat 16 cs
        frem := 0 }))

/-- 43_pseudo_ops.md R178: the still picture is a frame of command 0x44 with four lead bytes before the
SubFrame; from `IDLE` it puts that frame. -/
def Obligations.DrawPicturePutsFrame : Prop :=
  (∀ (sub : List Byte) (s : State), s.mode = .idle → sub.length ≤ 65528 →
    exec (.drawPicture sub) s = .next
      { s with
        txo := s.txo ++ frameBytes 0x44 ([0x00, 0x0A, 0x0A, 0x04] ++ sub)
        csum := BitVec.ofNat 16 (checksum 0x44 ([0x00, 0x0A, 0x0A, 0x04] ++ sub))
        frem := 0 }) ∧
  (∀ (sub : List Byte) (s : State),
    exec (.drawPicture sub) s = exec (.wireFrame 0x44 ([0x00, 0x0A, 0x0A, 0x04] ++ sub)) s)

/-- 30_encoding.md R86, R87: one packet written by hand, from `IDLE`; its frame has `m + 10` bytes and
a zero high length byte. Whatever the slice, it is the frame of 43_pseudo_ops.md R179. -/
def Obligations.WirePacketPutsFrame : Prop :=
  (∀ (size : Half) (index : Byte) (slice : List Byte) (s : State), s.mode = .idle →
    1 ≤ slice.length → slice.length ≤ 200 →
    exec (.wirePacket size index slice) s = .next
      (let lead := [BitVec.ofNat 8 size.toNat, BitVec.ofNat 8 (size.toNat / 256), index]
      let cs := slice.length + 6 + 0x49 + byteSum lead + byteSum slice
      { s with
        txo := s.txo ++ [0x01, BitVec.ofNat 8 (slice.length + 6), 0x00, 0x49] ++ lead ++ slice ++
          [BitVec.ofNat 8 cs, BitVec.ofNat 8 (cs / 256), 0x02]
        csum := BitVec.ofNat 16 cs
        frem := 0 })) ∧
  (∀ (size : Half) (index : Byte) (slice : List Byte) (s : State),
    exec (.wirePacket size index slice) s = exec (.wireFrame 0x49
      ([BitVec.ofNat 8 size.toNat, BitVec.ofNat 8 (size.toNat / 256), index] ++ slice)) s)

/-- 43_pseudo_ops.md R174: `ANIM [p]` from `IDLE` puts the packets' frames on `TXO` and leaves the
counters as its last packet does; an empty payload changes nothing (42_chunker.md R154); a payload
above 51200 bytes takes `PayloadTooLarge` (R155); one too long for the count operand has no expansion
and is refused (log entry 7). -/
def Obligations.AnimPutsPacketFrames : Prop :=
  ∀ (p : List Byte) (s : State), s.mode = .idle →
    exec (.anim p) s =
      if p.length = 0 then .next s
      else if p.length ≤ 51200 then .next
        { s with
          txo := s.txo ++ animBytes p
          ctotal := BitVec.ofNat 16 p.length
          crem := 0
          cidx := BitVec.ofNat 8 ((p.length - 1) / 200)
          csum := BitVec.ofNat 16 (checksum 0x49 (packetOf p ((p.length - 1) / 200)))
          frem := 0 }
      else if p.length ≤ 65535 then .next
        { s with
          mode := .fault
          fcause := 6
          fword := wordChBegin (BitVec.ofNat 16 p.length) }
      else .refused .noExpansion

/-- A pseudo-operation taken as one is the run of its words, one a step, whatever it leads to
(43_pseudo_ops.md R173, R174; log entry 6). -/
def Obligations.InstructionIsRunOfItsWords : Prop :=
  ∀ (i : Instr) (s t : State) (rest : List Input), i.wellFormed = true →
    exec i { s with pending := rest } = .next t →
    Sys2Proof.core.run (encode i).length { s with pending := (encode i).map .word ++ rest } = .next t

/-! ## The Chunker's operations -/

/-- 42_chunker.md R158 for an accepted size: nothing for an empty payload, else header and lead of
packet 0. -/
def Obligations.ChBeginOpensFirstPacket : Prop :=
  ∀ (size : Half) (s : State), s.mode = .idle → size.toNat ≤ 51200 →
    exec (.chBegin size) s = .next
      (if size.toNat = 0 then s
      else
        let m := min 200 size.toNat
        let lead := [BitVec.ofNat 8 size.toNat, BitVec.ofNat 8 (size.toNat / 256), 0x00]
        { s with
          ctotal := size
          crem := size
          cidx := 0
          txo := s.txo ++ [0x01, BitVec.ofNat 8 (m + 6), 0x00, 0x49] ++ lead
          csum := BitVec.ofNat 16 (m + 6 + 0x49 + byteSum lead)
          frem := BitVec.ofNat 16 m
          mode := .chunk })

/-- 42_chunker.md R159, with the bounds of 10_state.md R42: inside a packet the byte goes out; the
payload's last byte brings the trailer and `IDLE`; the last byte of another packet brings the trailer
and the next packet's header and lead. -/
def Obligations.ChDataPassesByte : Prop :=
  ∀ (b : Byte) (s : State), Inv s → s.mode = .chunk →
    exec (.chData b) s = .next
      (let cs := (s.csum.toNat + b.toNat) % 65536
      let trailer := [BitVec.ofNat 8 cs, BitVec.ofNat 8 (cs / 256), 0x02]
      if 2 ≤ s.frem.toNat then
        { s with
          txo := s.txo ++ [b]
          csum := BitVec.ofNat 16 cs
          frem := BitVec.ofNat 16 (s.frem.toNat - 1)
          crem := BitVec.ofNat 16 (s.crem.toNat - 1) }
      else if s.crem.toNat = 1 then
        { s with
          txo := s.txo ++ [b] ++ trailer
          csum := BitVec.ofNat 16 cs
          frem := 0
          crem := 0
          mode := .idle }
      else
        let m := min 200 (s.crem.toNat - 1)
        let lead := [BitVec.ofNat 8 s.ctotal.toNat, BitVec.ofNat 8 (s.ctotal.toNat / 256),
          BitVec.ofNat 8 (s.cidx.toNat + 1)]
        { s with
          txo := s.txo ++ [b] ++ trailer ++ [0x01, BitVec.ofNat 8 (m + 6), 0x00, 0x49] ++ lead
          csum := BitVec.ofNat 16 (m + 6 + 0x49 + byteSum lead)
          frem := BitVec.ofNat 16 m
          crem := BitVec.ofNat 16 (s.crem.toNat - 1)
          cidx := BitVec.ofNat 8 (s.cidx.toNat + 1) })

/-- 42_chunker.md R163: the words of a chunking transaction, one a step, append to `TXO` exactly what
`ANIM` returns; a payload above 51200 bytes faults at `CH.BEGIN` and nothing is appended. -/
def Obligations.AnimTransactionComputesAnim : Prop :=
  (∀ (p : List Byte) (s : State) (rest : List Input), s.mode = .idle → p.length ≤ 65535 →
    s.pending = (encodeAnim p).map .word ++ rest →
    ∃ t, Sys2Proof.core.run (p.length + 1) s = .next t ∧ t.pko = s.pko ∧ t.pending = rest ∧
      match anim p with
      | .ok bytes => t.txo = s.txo ++ bytes ∧ t.mode = .idle
      | .fault f => f = .payloadTooLarge ∧ t.txo = s.txo ∧ t.mode = .fault ∧ t.fcause = 6) ∧
  (∀ p : List Byte, 65535 < p.length → anim p = .fault .payloadTooLarge)

/-- 42_chunker.md R164: the state after `j` of the `P` payload bytes, and how much of the output has
gone out. -/
def Obligations.ChunkStateAfterBytes : Prop :=
  ∀ (p : List Byte) (j : Nat) (s : State), s.mode = .idle → j < p.length → p.length ≤ 51200 →
    ∃ t, andThen (exec (.chBegin (BitVec.ofNat 16 p.length)) s)
        (feed (fun b => exec (.chData b)) (p.take j)) = .next t ∧
      t.mode = .chunk ∧ t.ctotal.toNat = p.length ∧ t.crem.toNat = p.length - j ∧
      t.cidx.toNat = j / 200 ∧
      t.frem.toNat = min 200 (p.length - 200 * t.cidx.toNat) - j % 200 ∧
      t.txo = s.txo ++ (animBytes p).take (j + 10 * (j / 200) + 7)

/-- 42_chunker.md R160: the reassembly property of `CHUNK`. -/
def Obligations.PacketsReassemble : Prop :=
  ∀ (p : List Byte) (ks : List (List Byte)), chunk p = .ok ks →
    (∀ i, i < ks.length → ∃ lo hi index slice, ks[i]? = some (lo :: hi :: index :: slice) ∧
      ofLe16 lo hi = p.length ∧ index.toNat = i) ∧
    reassemble ks = p

/-- 42_chunker.md R151, R152: the number of packets, and the slice each carries: every packet but the
last is full, the last has what remains. -/
def Obligations.PacketsFilledInOrder : Prop :=
  ∀ (p : List Byte) (ks : List (List Byte)), chunk p = .ok ks →
    ks.length = (p.length + 199) / 200 ∧
    ∀ i, i < ks.length → ∃ k, ks[i]? = some k ∧
      k.drop 3 = (p.drop (200 * i)).take 200 ∧
      (i + 1 < ks.length → (k.drop 3).length = 200) ∧
      (i + 1 = ks.length → (k.drop 3).length = p.length - 200 * ((p.length + 199) / 200 - 1)) ∧
      1 ≤ (k.drop 3).length ∧ (k.drop 3).length ≤ 200

/-- 42_chunker.md R161: the size of `ANIM`'s output and of each packet frame. -/
def Obligations.AnimOutputSize : Prop :=
  ∀ p : List Byte, p.length ≤ 51200 →
    (animBytes p).length = p.length + 10 * ((p.length + 199) / 200) ∧
    ∀ i, i < (packets p).length → (frameBytes 0x49 (packetOf p i)).length =
      10 + if i + 1 < (packets p).length then 200 else p.length - 200 * i

/-! ## Faults -/

/-- 60_exceptions.md R213, 10_state.md R41: an operation out of turn takes `SequenceError`; so does a
pseudo-operation outside `IDLE`, at its first word, and its other words are ignored. -/
def Obligations.OperationOutOfTurnFaults : Prop :=
  (∀ (i : Instr) (m : Mode) (w : Word) (s : State), admittingMode i = some m → encode i = [w] →
    s.mode ≠ m → s.mode ≠ .fault →
    exec i s = .next { s with mode := .fault, fcause := 7, fword := w }) ∧
  (∀ (i : Instr) (w : Word) (ws : List Word) (s : State), i.isOperation = false →
    i.wellFormed = true → encode i = w :: ws → s.mode ≠ .idle → s.mode ≠ .fault →
    exec i s = .next { s with mode := .fault, fcause := 7, fword := w })

/-- The model's stop of log entry 4, where 00_scope.md R11 gives no value: a count below zero, an
index above 255 and an accumulator that does not fit. 10_state.md R42 excludes all these states. -/
def Obligations.NumbersOutsideRegistersStop : Prop :=
  (∀ (i : Half) (s : State), s.mode = .pack → i.toNat < s.psize.toNat →
    16 ≤ s.nbits.toNat + s.width.toNat ∨ 2 ^ 15 ≤ s.acc.toNat ||| i.toNat <<< s.nbits.toNat →
    exec (.pkPush i) s = .fault .registerRange) ∧
  (∀ (b : Byte) (s : State), s.mode = .frame → s.frem = 0 →
    exec (.frData b) s = .fault .registerRange) ∧
  (∀ (b : Byte) (s : State), s.mode = .chunk →
    (s.frem = 0 ∨ s.crem = 0 ∨ (s.frem = 1 ∧ s.crem.toNat ≠ 1 ∧ s.cidx = 255)) →
    exec (.chData b) s = .fault .registerRange)

/-- 60_exceptions.md R212: a word that matches no row takes `IllegalOp` in every mode but `FAULT`,
whatever operation it is near to. -/
def Obligations.IllegalWordFaults : Prop :=
  ∀ (w : Word) (s : State), s.mode ≠ .fault →
    exec (.illegal w) s = .next { s with mode := .fault, fcause := 8, fword := w } ∧
    ∀ rest : List Input, opcodeRows.filter (matchesRow w) = [] → s.pending = .word w :: rest →
      step s = .next { s with mode := .fault, fcause := 8, fword := w, pending := rest }

/-- 60_exceptions.md R219: in `FAULT` every command word is ignored, and so is every instruction that
has words. -/
def Obligations.FaultModeIgnoresWords : Prop :=
  (∀ (s : State) (w : Word) (rest : List Input), s.mode = .fault → s.pending = .word w :: rest →
    step s = .next { s with pending := rest }) ∧
  (∀ (s : State) (i : Instr), s.mode = .fault → i.wellFormed = true → exec i s = .next s)

/-- 60_exceptions.md R217: in `FAULT` the word is ignored; otherwise the fault a word takes, if any, is
the first check that fails, it writes `MODE`, `FCAUSE` and `FWORD` and nothing else (R218), and without
one the mode is that of the table of 10_state.md R41. The premise is the invariant of R42. -/
def Obligations.StepTakesFirstFault : Prop :=
  ∀ (s : State) (w : Word) (rest : List Input), Inv s → s.pending = .word w :: rest →
    ∃ t, step s = .next t ∧
      (s.mode = .fault → t = { s with pending := rest }) ∧
      (s.mode ≠ .fault →
        match faultOf w s with
        | some f => t = { s with
            mode := .fault, fcause := causeCode f, fword := w, pending := rest }
        | none => t.mode = modeAfter s (decode w) ∧ t.fcause = s.fcause ∧ t.fword = s.fword ∧
            t.pending = rest)

/-- 60_exceptions.md R218 in every state, also one that no run reaches: a step that ends in `FAULT`
has written `MODE`, `FCAUSE`, `FWORD` only, the word whole, and a code from 1 to 8. -/
def Obligations.FaultEntryIsPrecise : Prop :=
  ∀ (s t : State) (w : Word) (rest : List Input), s.mode ≠ .fault → s.pending = .word w :: rest →
    step s = .next t → t.mode = .fault →
    t = { s with mode := .fault, fcause := t.fcause, fword := w, pending := rest } ∧
    1 ≤ t.fcause.toNat ∧ t.fcause.toNat ≤ 8

/-- 10_state.md R22, R36 and 60_exceptions.md R211: the codes of `MODE` and `FCAUSE`, and what the host
reads on `STATUS` once a fault is taken. -/
def Obligations.StatusShowsFault : Prop :=
  [Mode.idle, .pack, .frame, .chunk, .fault].map modeCode = [0, 1, 2, 3, 4] ∧
  [Cause.paletteOverflow, .frameTooLarge, .paletteEmpty, .singleColor, .indexRange, .payloadTooLarge,
    .sequenceError, .illegalOp].map causeCode = [1, 2, 3, 4, 5, 6, 7, 8] ∧
  ∀ (f : Cause) (w : Word) (s : State), status (raise f w s) = (4, causeCode f, w)

/-- 10_state.md R40, the columns written: what each operation leaves unchanged when it raises no
fault. No operation touches `FCAUSE`, `FWORD` or the host's events; the packer leaves the framer's and
chunker's registers and `TXO` alone; the framer and the chunker leave the packer's registers and `PKO`
alone; the framer leaves the chunker's registers alone. -/
def Obligations.OperationsKeepOtherRegisters : Prop :=
  ∀ (i : Instr) (s t : State), exec i s = .next t → t.mode ≠ .fault →
    t.fcause = s.fcause ∧ t.fword = s.fword ∧ t.pending = s.pending ∧
    match i with
    | .pkCfg _ _ => t.csum = s.csum ∧ t.frem = s.frem ∧ t.ctotal = s.ctotal ∧ t.crem = s.crem ∧
        t.cidx = s.cidx ∧ t.txo = s.txo ∧ t.pko = s.pko
    | .pkPush _ => t.csum = s.csum ∧ t.frem = s.frem ∧ t.ctotal = s.ctotal ∧ t.crem = s.crem ∧
        t.cidx = s.cidx ∧ t.txo = s.txo ∧ t.mode = s.mode ∧ t.variant = s.variant ∧
        t.psize = s.psize ∧ t.width = s.width
    | .pkEnd => t.csum = s.csum ∧ t.frem = s.frem ∧ t.ctotal = s.ctotal ∧ t.crem = s.crem ∧
        t.cidx = s.cidx ∧ t.txo = s.txo ∧ t.variant = s.variant ∧ t.psize = s.psize ∧
        t.width = s.width
    | .chData _ => t.variant = s.variant ∧ t.psize = s.psize ∧ t.width = s.width ∧ t.acc = s.acc ∧
        t.nbits = s.nbits ∧ t.pko = s.pko ∧ t.ctotal = s.ctotal
    | .chBegin _ => t.variant = s.variant ∧ t.psize = s.psize ∧ t.width = s.width ∧ t.acc = s.acc ∧
        t.nbits = s.nbits ∧ t.pko = s.pko
    | .anim _ => t.variant = s.variant ∧ t.psize = s.psize ∧ t.width = s.width ∧ t.acc = s.acc ∧
        t.nbits = s.nbits ∧ t.pko = s.pko
    | _ => t.variant = s.variant ∧ t.psize = s.psize ∧ t.width = s.width ∧ t.acc = s.acc ∧
        t.nbits = s.nbits ∧ t.pko = s.pko ∧ t.ctotal = s.ctotal ∧ t.crem = s.crem ∧ t.cidx = s.cidx

/-- 60_exceptions.md R216: the Chunker and the Command Framer do not consult `VARIANT`: with the other
variant in the register they do the same. -/
def Obligations.FramingIgnoresVariant : Prop :=
  ∀ (i : Instr) (s t : State) (v : Variant), (∀ u k, i ≠ .pkCfg u k) → (∀ x, i ≠ .pkPush x) →
    i ≠ .pkEnd → exec i s = .next t → exec i { s with variant := v } = .next { t with variant := v }

/-! ## The machine as a whole -/

/-- 10_state.md R42: the invariants hold after reset, and after every step from every state in which
they hold. -/
def Obligations.StepKeepsInvariant : Prop :=
  Inv State.reset ∧ ∀ s t : State, Inv s → step s = .next t → Inv t

/-- In a state that meets the invariants the machine always takes a step: no value fails to fit its
register, and nothing is refused (10_state.md R42, 60_exceptions.md R210; log entry 4). -/
def Obligations.InvariantStatesNeverStop : Prop :=
  ∀ s : State, Inv s → Steps s

/-- 20_memory.md R52, R63 and 70_reset_and_hazards.md R242: no event removes or changes an emitted
byte; a step only appends, a reset event appends nothing. -/
def Obligations.StreamsOnlyGrow : Prop :=
  ∀ s t : State, step s = .next t →
    s.pko <+: t.pko ∧ s.txo <+: t.txo ∧
    (∀ rest, s.pending = .reset :: rest → t.pko = s.pko ∧ t.txo = s.txo)

/-- 20_memory.md R59: one step emits at most 1 byte on `PKO` and at most 11 on `TXO`, and not on
both. -/
def Obligations.StepEmitsAtMostElevenBytes : Prop :=
  ∀ s t : State, step s = .next t →
    t.pko.length ≤ s.pko.length + 1 ∧ t.txo.length ≤ s.txo.length + 11 ∧
    (t.pko = s.pko ∨ t.txo = s.txo)

/-- 20_memory.md R68, its first sentence: while no fault has been raised, a word leaves `TXO` a
concatenation of complete frames followed by at most one incomplete frame, the one of the open
transaction. -/
def Obligations.TxoStaysWholeFramesAndOneOpen : Prop :=
  ∀ (s t : State) (w : Word) (rest : List Input), Inv s → TxoShape s →
    s.pending = .word w :: rest → step s = .next t → TxoShape t

/-- 70_reset_and_hazards.md R255. What `PKO` is, given the packing transactions of the words so far
(`PkoShape`; 40_packer.md R118, R119), holds of the reset state and is kept by every word that is taken;
a word that faults or is ignored adds nothing to the record and leaves the shape. So whatever words the
host gives from reset, without a fault `PKO` has the shape of their record; and if the run is finished,
its `PKO` is the outputs of `PACK` on the images those words gave, each closed, and its `TXO` is a
concatenation of complete wire frames. -/
def Obligations.FinishedRunOutputsAreWhole : Prop :=
  PkoShape PackRecord.empty State.reset ∧
  (∀ (r : PackRecord) (s t : State) (w : Word) (rest : List Input), PkoShape r s →
    s.pending = .word w :: rest → step s = .next t →
    PkoShape (if t.mode = .fault then r else r.take (decode w)) t) ∧
  (∀ (ws : List Word) (t : State),
    Sys2Proof.core.run ws.length (offerWords ws State.reset) = .next t → t.mode ≠ .fault →
    PkoShape (packRecord ws) t) ∧
  (∀ (ws : List Word) (t : State),
    Sys2Proof.core.run ws.length (offerWords ws State.reset) = .next t → runOutcome t = .finished →
    WholeFrames t.txo ∧ WholeImages (packRecord ws).closed t.pko ∧ (packRecord ws).opened = none)

/-- 70_reset_and_hazards.md R255 and 10_state.md R42: from reset every run of words is played to its
end, and its outcome is one of the three. -/
def Obligations.EveryRunFromResetIsPlayed : Prop :=
  ∀ ws : List Word, ∃ t,
    Sys2Proof.core.run ws.length (offerWords ws State.reset) = .next t ∧ t.pending = [] ∧ Inv t ∧
    (runOutcome t = .faulted ↔ t.fcause ≠ 0)
end

