-- ==== Sys2Proof/Laws/Bytes.lean ====
section
/-! SUPPORT. The small lemmas of the byte and bit-string functions. -/

namespace Sys2Proof.Machine

@[simp] theorem lo8_toNat (x : Nat) : (lo8 x).toNat = x % 256 := by simp [lo8]

@[simp] theorem hi8_toNat (x : Nat) : (hi8 x).toNat = x / 256 % 256 := by simp [hi8]

@[simp] theorem le16_length (x : Nat) : (le16 x).length = 2 := rfl

theorem ofLe16_le16 {x : Nat} (h : x ≤ 65535) : ofLe16 (lo8 x) (hi8 x) = x := by
  simp only [ofLe16, lo8_toNat, hi8_toNat]; omega

@[simp] theorem byteSum_nil : byteSum [] = 0 := rfl

@[simp] theorem byteSum_cons (b : Byte) (bs : List Byte) : byteSum (b :: bs) = b.toNat + byteSum bs :=
  rfl

@[simp] theorem byteSum_append (xs ys : List Byte) : byteSum (xs ++ ys) = byteSum xs + byteSum ys := by
  induction xs with
  | nil => simp
  | cons x xs ih => simp [ih]; omega

theorem byteSum_le16 (x : Nat) : byteSum (le16 x) = x % 256 + x / 256 % 256 := by simp [le16]

theorem byteSum_le (bs : List Byte) : byteSum bs ≤ 255 * bs.length := by
  induction bs with
  | nil => simp
  | cons b bs ih => have := b.isLt; simp; omega

@[simp] theorem frameHeader_length (c : Byte) (n : Nat) : (frameHeader c n).length = 4 := rfl

@[simp] theorem frameTrailer_length (cs : Nat) : (frameTrailer cs).length = 3 := rfl

@[simp] theorem frameBytes_length (c : Byte) (args : List Byte) :
    (frameBytes c args).length = args.length + 7 := by
  simp [frameBytes]; omega

@[simp] theorem packetLead_length (size index : Nat) : (packetLead size index).length = 3 := rfl

@[simp] theorem bitString_nil (w : Nat) : bitString w [] = 0 := rfl

@[simp] theorem bitString_cons (w x : Nat) (xs : List Nat) :
    bitString w (x :: xs) = x + 2 ^ w * bitString w xs := rfl

/-- A later index stands above all the earlier ones. -/
theorem bitString_append (w : Nat) (xs ys : List Nat) :
    bitString w (xs ++ ys) = bitString w xs + 2 ^ (xs.length * w) * bitString w ys := by
  induction xs with
  | nil => simp
  | cons x xs ih =>
    simp only [List.cons_append, bitString_cons, ih, List.length_cons, Nat.add_mul, Nat.one_mul,
      Nat.pow_add]
    ring

/-- The codes do not overlap: the bit string of `N` indices below `2^w` is below `2^(N*w)`
(40_packer.md R105). -/
theorem bitString_lt {w : Nat} {xs : List Nat} (h : ∀ x ∈ xs, x < 2 ^ w) :
    bitString w xs < 2 ^ (xs.length * w) := by
  induction xs with
  | nil => simp
  | cons x xs ih =>
    have hx : x < 2 ^ w := h x (by simp)
    have ht := ih fun y hy => h y (by simp [hy])
    have hle : 2 ^ w * (bitString w xs + 1) ≤ 2 ^ w * 2 ^ (xs.length * w) :=
      Nat.mul_le_mul_left _ ht
    simp only [bitString_cons, List.length_cons, Nat.add_mul, Nat.one_mul, Nat.pow_add]
    rw [Nat.mul_comm (2 ^ (xs.length * w))]
    rw [Nat.mul_add] at hle
    omega

/-- The sum form in which 40_packer.md R105 writes the bit string. -/
theorem bitString_eq_sum (w : Nat) (idx : List Nat) :
    bitString w idx = ∑ j ∈ Finset.range idx.length, idx.getD j 0 * 2 ^ (j * w) := by
  induction idx with
  | nil => simp
  | cons x xs ih =>
    rw [bitString_cons, ih, List.length_cons, Finset.sum_range_succ', Finset.mul_sum]
    simp only [List.getD_cons_succ, List.getD_cons_zero, Nat.zero_mul, Nat.pow_zero, Nat.mul_one]
    rw [Nat.add_comm]
    congr 1
    refine Finset.sum_congr rfl fun j _ => ?_
    rw [Nat.add_mul, Nat.one_mul, Nat.pow_add]
    ring

end Sys2Proof.Machine
end

