-- ==== Sys2Proof/Laws/Decode.lean ====
section
/-! SUPPORT. Small lemmas about command words: a masked comparison bit by bit, and lists of words. -/

namespace Sys2Proof.Laws

open Sys2Proof

/-- A row's mask and match compared bit by bit (30_encoding.md R72). -/
theorem masked_eq_iff (w mask pattern : Word) :
    w &&& mask = pattern ↔ ∀ j, j < 32 → (w.getLsbD j && mask.getLsbD j) = pattern.getLsbD j := by
  constructor
  · rintro rfl j _
    simp
  · intro h
    apply BitVec.eq_of_getLsbD_eq
    intro j hj
    simpa using h j hj

/-- `matchesRow` is the row's masked comparison. -/
theorem matchesRow_iff (w : Word) (row : String × Word × Word) :
    matchesRow w row = true ↔ w &&& row.2.1 = row.2.2 := by
  simp [matchesRow]

/-- An illegal word is one that no row matches (30_encoding.md R75). -/
theorem decode_of_no_row {w : Word} (h : opcodeRows.filter (matchesRow w) = []) :
    decode w = .illegal w := by
  simp only [List.filter_eq_nil_iff, opcodeRows, List.forall_mem_cons, matchesRow_iff] at h
  obtain ⟨h1, h2, h3, h4, h5, h6, h7, -⟩ := h
  simp only [decode, h1, h2, h3, h4, h5, h6, h7, if_false]

end Sys2Proof.Laws
end

