-- ==== Sys2Proof/Laws/State.lean ====
section
/-! SUPPORT. One lemma for each field of State and each named update, so that no proof unfolds a
record update. -/

namespace Sys2Proof.Machine

variable (b : Byte) (bs : List Byte) (f : Cause) (w : Word) (ws : List Word) (s : State)

@[simp] theorem emitPko_mode : (emitPko b s).mode = s.mode := rfl
@[simp] theorem emitPko_fcause : (emitPko b s).fcause = s.fcause := rfl
@[simp] theorem emitPko_fword : (emitPko b s).fword = s.fword := rfl
@[simp] theorem emitPko_variant : (emitPko b s).variant = s.variant := rfl
@[simp] theorem emitPko_psize : (emitPko b s).psize = s.psize := rfl
@[simp] theorem emitPko_width : (emitPko b s).width = s.width := rfl
@[simp] theorem emitPko_acc : (emitPko b s).acc = s.acc := rfl
@[simp] theorem emitPko_nbits : (emitPko b s).nbits = s.nbits := rfl
@[simp] theorem emitPko_csum : (emitPko b s).csum = s.csum := rfl
@[simp] theorem emitPko_frem : (emitPko b s).frem = s.frem := rfl
@[simp] theorem emitPko_ctotal : (emitPko b s).ctotal = s.ctotal := rfl
@[simp] theorem emitPko_crem : (emitPko b s).crem = s.crem := rfl
@[simp] theorem emitPko_cidx : (emitPko b s).cidx = s.cidx := rfl
@[simp] theorem emitPko_pko : (emitPko b s).pko = s.pko ++ [b] := rfl
@[simp] theorem emitPko_txo : (emitPko b s).txo = s.txo := rfl
@[simp] theorem emitPko_pending : (emitPko b s).pending = s.pending := rfl

@[simp] theorem emitTxo_mode : (emitTxo bs s).mode = s.mode := rfl
@[simp] theorem emitTxo_fcause : (emitTxo bs s).fcause = s.fcause := rfl
@[simp] theorem emitTxo_fword : (emitTxo bs s).fword = s.fword := rfl
@[simp] theorem emitTxo_variant : (emitTxo bs s).variant = s.variant := rfl
@[simp] theorem emitTxo_psize : (emitTxo bs s).psize = s.psize := rfl
@[simp] theorem emitTxo_width : (emitTxo bs s).width = s.width := rfl
@[simp] theorem emitTxo_acc : (emitTxo bs s).acc = s.acc := rfl
@[simp] theorem emitTxo_nbits : (emitTxo bs s).nbits = s.nbits := rfl
@[simp] theorem emitTxo_csum : (emitTxo bs s).csum = s.csum := rfl
@[simp] theorem emitTxo_frem : (emitTxo bs s).frem = s.frem := rfl
@[simp] theorem emitTxo_ctotal : (emitTxo bs s).ctotal = s.ctotal := rfl
@[simp] theorem emitTxo_crem : (emitTxo bs s).crem = s.crem := rfl
@[simp] theorem emitTxo_cidx : (emitTxo bs s).cidx = s.cidx := rfl
@[simp] theorem emitTxo_pko : (emitTxo bs s).pko = s.pko := rfl
@[simp] theorem emitTxo_txo : (emitTxo bs s).txo = s.txo ++ bs := rfl
@[simp] theorem emitTxo_pending : (emitTxo bs s).pending = s.pending := rfl

@[simp] theorem raise_mode : (raise f w s).mode = .fault := rfl
@[simp] theorem raise_fcause : (raise f w s).fcause = causeCode f := rfl
@[simp] theorem raise_fword : (raise f w s).fword = w := rfl
@[simp] theorem raise_variant : (raise f w s).variant = s.variant := rfl
@[simp] theorem raise_psize : (raise f w s).psize = s.psize := rfl
@[simp] theorem raise_width : (raise f w s).width = s.width := rfl
@[simp] theorem raise_acc : (raise f w s).acc = s.acc := rfl
@[simp] theorem raise_nbits : (raise f w s).nbits = s.nbits := rfl
@[simp] theorem raise_csum : (raise f w s).csum = s.csum := rfl
@[simp] theorem raise_frem : (raise f w s).frem = s.frem := rfl
@[simp] theorem raise_ctotal : (raise f w s).ctotal = s.ctotal := rfl
@[simp] theorem raise_crem : (raise f w s).crem = s.crem := rfl
@[simp] theorem raise_cidx : (raise f w s).cidx = s.cidx := rfl
@[simp] theorem raise_pko : (raise f w s).pko = s.pko := rfl
@[simp] theorem raise_txo : (raise f w s).txo = s.txo := rfl
@[simp] theorem raise_pending : (raise f w s).pending = s.pending := rfl

@[simp] theorem resetRegisters_mode : (resetRegisters s).mode = State.reset.mode := rfl
@[simp] theorem resetRegisters_fcause : (resetRegisters s).fcause = State.reset.fcause := rfl
@[simp] theorem resetRegisters_fword : (resetRegisters s).fword = State.reset.fword := rfl
@[simp] theorem resetRegisters_variant : (resetRegisters s).variant = State.reset.variant := rfl
@[simp] theorem resetRegisters_psize : (resetRegisters s).psize = State.reset.psize := rfl
@[simp] theorem resetRegisters_width : (resetRegisters s).width = State.reset.width := rfl
@[simp] theorem resetRegisters_acc : (resetRegisters s).acc = State.reset.acc := rfl
@[simp] theorem resetRegisters_nbits : (resetRegisters s).nbits = State.reset.nbits := rfl
@[simp] theorem resetRegisters_csum : (resetRegisters s).csum = State.reset.csum := rfl
@[simp] theorem resetRegisters_frem : (resetRegisters s).frem = State.reset.frem := rfl
@[simp] theorem resetRegisters_ctotal : (resetRegisters s).ctotal = State.reset.ctotal := rfl
@[simp] theorem resetRegisters_crem : (resetRegisters s).crem = State.reset.crem := rfl
@[simp] theorem resetRegisters_cidx : (resetRegisters s).cidx = State.reset.cidx := rfl
@[simp] theorem resetRegisters_pko : (resetRegisters s).pko = s.pko := rfl
@[simp] theorem resetRegisters_txo : (resetRegisters s).txo = s.txo := rfl
@[simp] theorem resetRegisters_pending : (resetRegisters s).pending = s.pending := rfl

@[simp] theorem offerWords_mode : (offerWords ws s).mode = s.mode := rfl
@[simp] theorem offerWords_fcause : (offerWords ws s).fcause = s.fcause := rfl
@[simp] theorem offerWords_fword : (offerWords ws s).fword = s.fword := rfl
@[simp] theorem offerWords_variant : (offerWords ws s).variant = s.variant := rfl
@[simp] theorem offerWords_psize : (offerWords ws s).psize = s.psize := rfl
@[simp] theorem offerWords_width : (offerWords ws s).width = s.width := rfl
@[simp] theorem offerWords_acc : (offerWords ws s).acc = s.acc := rfl
@[simp] theorem offerWords_nbits : (offerWords ws s).nbits = s.nbits := rfl
@[simp] theorem offerWords_csum : (offerWords ws s).csum = s.csum := rfl
@[simp] theorem offerWords_frem : (offerWords ws s).frem = s.frem := rfl
@[simp] theorem offerWords_ctotal : (offerWords ws s).ctotal = s.ctotal := rfl
@[simp] theorem offerWords_crem : (offerWords ws s).crem = s.crem := rfl
@[simp] theorem offerWords_cidx : (offerWords ws s).cidx = s.cidx := rfl
@[simp] theorem offerWords_pko : (offerWords ws s).pko = s.pko := rfl
@[simp] theorem offerWords_txo : (offerWords ws s).txo = s.txo := rfl
@[simp] theorem offerWords_pending : (offerWords ws s).pending = ws.map .word ++ s.pending := rfl

@[simp] theorem reset_mode : State.reset.mode = .idle := rfl
@[simp] theorem reset_fcause : State.reset.fcause = 0 := rfl
@[simp] theorem reset_fword : State.reset.fword = 0 := rfl
@[simp] theorem reset_variant : State.reset.variant = .classic := rfl
@[simp] theorem reset_psize : State.reset.psize = 0 := rfl
@[simp] theorem reset_width : State.reset.width = 0 := rfl
@[simp] theorem reset_acc : State.reset.acc = 0 := rfl
@[simp] theorem reset_nbits : State.reset.nbits = 0 := rfl
@[simp] theorem reset_csum : State.reset.csum = 0 := rfl
@[simp] theorem reset_frem : State.reset.frem = 0 := rfl
@[simp] theorem reset_ctotal : State.reset.ctotal = 0 := rfl
@[simp] theorem reset_crem : State.reset.crem = 0 := rfl
@[simp] theorem reset_cidx : State.reset.cidx = 0 := rfl
@[simp] theorem reset_pko : State.reset.pko = [] := rfl
@[simp] theorem reset_txo : State.reset.txo = [] := rfl
@[simp] theorem reset_pending : State.reset.pending = [] := rfl

end Sys2Proof.Machine
end

