-- ==== Sys2Proof/Laws/Ops.lean ====
section
/-! SUPPORT. For each shared operation, one lemma that says once everything it can do. Proofs about
the machine cite these and do not unfold the operations. -/

namespace Sys2Proof.Machine

/-! ## Sequencing -/

@[simp] theorem andThen_next (s : State) (f : State → Out) : andThen (.next s) f = f s := rfl

@[simp] theorem andThen_fault (r : Fault) (f : State → Out) : andThen (.fault r) f = .fault r := rfl

@[simp] theorem andThen_refused (r : Refusal) (f : State → Out) :
    andThen (.refused r) f = .refused r := rfl

theorem andThen_eq_next {o : Out} {f : State → Out} {t : State} :
    andThen o f = .next t ↔ ∃ s, o = .next s ∧ f s = .next t := by
  cases o <;> simp [andThen]

@[simp] theorem feed_nil {α : Type} (op : α → State → Out) (s : State) : feed op [] s = .next s := rfl

@[simp] theorem feed_cons {α : Type} (op : α → State → Out) (x : α) (xs : List α) (s : State) :
    feed op (x :: xs) s = andThen (op x s) (feed op xs) := rfl

theorem feed_append {α : Type} (op : α → State → Out) (xs ys : List α) (s : State) :
    feed op (xs ++ ys) s = andThen (feed op xs s) (feed op ys) := by
  induction xs generalizing s with
  | nil => rfl
  | cons x xs ih =>
    simp only [List.cons_append, feed_cons]
    cases op x s <;> simp [andThen]
    exact ih _

/-! ## The template of every operation (60_exceptions.md R217) -/

theorem inMode_fault {m : Mode} {w : Word} {body : State → Out} {s : State} (h : s.mode = .fault) :
    inMode m w body s = .next s := by simp [inMode, h]

theorem inMode_other {m : Mode} {w : Word} {body : State → Out} {s : State} (hf : s.mode ≠ .fault)
    (h : s.mode ≠ m) : inMode m w body s = .next (raise .sequenceError w s) := by
  simp [inMode, hf, h]

theorem inMode_own {m : Mode} {w : Word} {body : State → Out} {s : State} (hm : m ≠ .fault)
    (h : s.mode = m) : inMode m w body s = body s := by
  subst h; simp [inMode, hm]

/-- Everything the template can do. -/
theorem inMode_cases (m : Mode) (w : Word) (body : State → Out) (s : State) (hm : m ≠ .fault) :
    (s.mode = .fault ∧ inMode m w body s = .next s) ∨
    (s.mode ≠ .fault ∧ s.mode ≠ m ∧ inMode m w body s = .next (raise .sequenceError w s)) ∨
    (s.mode = m ∧ inMode m w body s = body s) := by
  by_cases hf : s.mode = .fault
  · exact .inl ⟨hf, inMode_fault hf⟩
  · by_cases h : s.mode = m
    · exact .inr (.inr ⟨h, inMode_own hm h⟩)
    · exact .inr (.inl ⟨hf, h, inMode_other hf h⟩)

/-! ## The framer's procedures (41_framer.md R134 to R136) -/

/-- What a closing frame adds: the trailer when nothing is missing, else nothing. -/
def closing (frem csum : Nat) : List Byte := if frem = 0 then frameTrailer csum else []

@[simp] theorem closing_zero (csum : Nat) : closing 0 csum = frameTrailer csum := rfl

theorem closing_pos {frem : Nat} (csum : Nat) (h : 0 < frem) : closing frem csum = [] := by
  simp [closing, Nat.pos_iff_ne_zero.mp h]

/-- Everything `frame_close` does. -/
theorem frameClose_eq (s : State) :
    frameClose s = { s with txo := s.txo ++ frameTrailer s.csum.toNat } := rfl

/-- Everything `frame_open` does. -/
theorem frameOpen_eq (c : Byte) (n : Nat) (s : State) (hn : n ≤ 65532) :
    frameOpen c n s =
      { s with
        txo := s.txo ++ frameHeader c n ++ closing n (byteSum (le16 (n + 3)) + c.toNat)
        csum := BitVec.ofNat 16 (byteSum (le16 (n + 3)) + c.toNat)
        frem := BitVec.ofNat 16 n } := by
  have hc := c.isLt
  have hs : (byteSum (le16 (n + 3)) + c.toNat) % 65536 = byteSum (le16 (n + 3)) + c.toNat := by
    rw [byteSum_le16]; omega
  by_cases h : n = 0
  · subst h
    simp only [frameOpen, Config.lenOverhead, if_true, frameClose, emitTxo, BitVec.toNat_ofNat,
      closing_zero, List.append_assoc]
    rw [hs]
  · simp [frameOpen, h, emitTxo, closing, Config.lenOverhead]

theorem ofNat16_eq_zero {n : Nat} (h : n < 65536) : BitVec.ofNat 16 n = 0 ↔ n = 0 := by
  rw [← BitVec.toNat_inj]
  simp [Nat.mod_eq_of_lt h]

theorem ofNat16_toNat {n : Nat} (h : n < 65536) : (BitVec.ofNat 16 n).toNat = n := by
  simp [Nat.mod_eq_of_lt h]

/-- Everything `frame_byte` does while a byte is missing. -/
theorem frameByte_eq (b : Byte) (s : State) (h : 1 ≤ s.frem.toNat) :
    frameByte b s =
      { s with
        txo := s.txo ++ [b] ++ closing (s.frem.toNat - 1) ((s.csum.toNat + b.toNat) % 65536)
        csum := BitVec.ofNat 16 (s.csum.toNat + b.toNat)
        frem := BitVec.ofNat 16 (s.frem.toNat - 1) } := by
  have hf := s.frem.isLt
  have hz := ofNat16_eq_zero (n := s.frem.toNat - 1) (by omega)
  by_cases h1 : s.frem.toNat - 1 = 0
  · simp [frameByte, emitTxo, frameClose, closing, h1]
  · simp only [frameByte, emitTxo]
    rw [if_neg (by rwa [hz]), closing_pos _ (by omega), List.append_nil]

/-- Everything `takeArgument` does while a byte is missing. -/
theorem takeArgument_eq (b : Byte) (s : State) (h : 1 ≤ s.frem.toNat) :
    takeArgument b s = .next
      { s with
        txo := s.txo ++ [b] ++ closing (s.frem.toNat - 1) ((s.csum.toNat + b.toNat) % 65536)
        csum := BitVec.ofNat 16 (s.csum.toNat + b.toNat)
        frem := BitVec.ofNat 16 (s.frem.toNat - 1)
        mode := if s.frem.toNat = 1 then .idle else s.mode } := by
  have hf := s.frem.isLt
  have h0 : ¬ s.frem = 0 := by rintro h0; simp [h0] at h
  have hz := ofNat16_eq_zero (n := s.frem.toNat - 1) (by omega)
  simp only [takeArgument, h0, if_false, frameByte_eq b s h, hz]
  by_cases h1 : s.frem.toNat = 1
  · simp [h1]
  · rw [if_neg (by omega), if_neg h1]

/-! ## The chunker's procedure (42_chunker.md R157) -/

/-- A byte that does not close the frame. -/
theorem frameByte_inside (b : Byte) (s : State) (h : 2 ≤ s.frem.toNat) :
    frameByte b s =
      { s with
        txo := s.txo ++ [b]
        csum := BitVec.ofNat 16 (s.csum.toNat + b.toNat)
        frem := BitVec.ofNat 16 (s.frem.toNat - 1) } := by
  rw [frameByte_eq b s (by omega), closing_pos _ (by omega), List.append_nil]

/-- Everything `chunk_open` does while a payload byte is missing. -/
theorem chunkOpen_eq (s : State) (h : 1 ≤ s.crem.toNat) :
    chunkOpen s =
      { s with
        txo := s.txo ++ frameHeader Config.cmdAnim (min 200 s.crem.toNat + 3) ++
          packetLead s.ctotal.toNat s.cidx.toNat
        csum := BitVec.ofNat 16
          (byteSum (le16 (min 200 s.crem.toNat + 6)) + 0x49 +
            byteSum (packetLead s.ctotal.toNat s.cidx.toNat))
        frem := BitVec.ofNat 16 (min 200 s.crem.toNat) } := by
  obtain ⟨m, hm⟩ : ∃ m, min 200 s.crem.toNat = m := ⟨_, rfl⟩
  have hm1 : 1 ≤ m ∧ m ≤ 200 := by omega
  have e3 : (m + 3) % 65536 = m + 3 := Nat.mod_eq_of_lt (by omega)
  have e2 : (m + 2) % 65536 = m + 2 := Nat.mod_eq_of_lt (by omega)
  have e1 : (m + 1) % 65536 = m + 1 := Nat.mod_eq_of_lt (by omega)
  have d2 : m + 3 - 1 = m + 2 := rfl
  have d1 : m + 2 - 1 = m + 1 := rfl
  simp only [chunkOpen, Config.chunkMax, hm]
  rw [frameOpen_eq _ _ _ (by omega), closing_pos _ (by omega), List.append_nil,
    frameByte_inside (lo8 _) _ (by simp [e3]),
    frameByte_inside (hi8 _) _ (by simp only [BitVec.toNat_ofNat, Nat.reducePow, e3, d2, e2]; omega),
    frameByte_inside _ _ (by simp only [BitVec.toNat_ofNat, Nat.reducePow, e3, d2, e2, d1, e1]; omega)]
  simp only [BitVec.toNat_ofNat, Nat.reducePow, e3, d2, e2, d1, e1, Nat.add_sub_cancel]
  have hi : BitVec.ofNat 8 s.cidx.toNat = s.cidx := by simp
  have hc : ∀ a b c d e : Nat, BitVec.ofNat 16 ((((a + e) % 65536 + b) % 65536 + c) % 65536 + d) =
      BitVec.ofNat 16 (a + e + (b + (c + d))) := by
    intro a b c d e
    apply BitVec.eq_of_toNat_eq
    simp only [BitVec.toNat_ofNat]; omega
  simp only [hc, packetLead, le16, hi, Config.cmdAnim, List.append_assoc, byteSum_cons,
    byteSum_nil, Nat.add_zero, List.cons_append, List.nil_append, BitVec.reduceToNat]

/-- Everything `takePayloadByte` can do while a byte is missing: it goes on inside the packet, ends
the payload, or opens the next packet; the index runs out only at 255. -/
theorem takePayloadByte_cases (b : Byte) (s : State) (hf : 1 ≤ s.frem.toNat) (hc : 1 ≤ s.crem.toNat) :
    let taken : State :=
      { s with
        txo := s.txo ++ [b] ++ closing (s.frem.toNat - 1) ((s.csum.toNat + b.toNat) % 65536)
        csum := BitVec.ofNat 16 (s.csum.toNat + b.toNat)
        frem := BitVec.ofNat 16 (s.frem.toNat - 1)
        crem := BitVec.ofNat 16 (s.crem.toNat - 1) }
    (2 ≤ s.frem.toNat ∧ takePayloadByte b s = .next taken) ∨
    (s.frem.toNat = 1 ∧ s.crem.toNat = 1 ∧ takePayloadByte b s = .next { taken with mode := .idle }) ∨
    (s.frem.toNat = 1 ∧ 2 ≤ s.crem.toNat ∧ s.cidx.toNat = 255 ∧
      takePayloadByte b s = .fault .registerRange) ∨
    (s.frem.toNat = 1 ∧ 2 ≤ s.crem.toNat ∧ s.cidx.toNat ≠ 255 ∧ takePayloadByte b s =
      .next (chunkOpen { taken with cidx := BitVec.ofNat 8 (s.cidx.toNat + 1) })) := by
  intro taken
  have hfl := s.frem.isLt
  have hcl := s.crem.isLt
  have h0 : ¬ (s.frem = 0 ∨ s.crem = 0) := by
    rintro (h0 | h0)
    · simp [h0] at hf
    · simp [h0] at hc
  have hzf := ofNat16_eq_zero (n := s.frem.toNat - 1) (by omega)
  have hzc := ofNat16_eq_zero (n := s.crem.toNat - 1) (by omega)
  have htake : takePayloadByte b s = afterPayloadByte taken := by
    simp only [takePayloadByte, h0, if_false, frameByte_eq b s hf]
    rfl
  rw [htake, afterPayloadByte]
  by_cases h1 : s.frem.toNat = 1
  · have hz : taken.frem = 0 := hzf.mpr (by omega)
    rw [if_pos hz]
    by_cases h2 : s.crem.toNat = 1
    · have hzc' : taken.crem = 0 := hzc.mpr (by omega)
      rw [if_pos hzc']
      exact .inr (.inl ⟨h1, h2, rfl⟩)
    · have hzc' : ¬ taken.crem = 0 := by rw [hzc]; omega
      rw [if_neg hzc']
      by_cases h3 : s.cidx.toNat = 255
      · exact .inr (.inr (.inl ⟨h1, by omega, h3, if_pos h3⟩))
      · exact .inr (.inr (.inr ⟨h1, by omega, h3, if_neg h3⟩))
  · have hz : ¬ taken.frem = 0 := by rw [hzf]; omega
    rw [if_neg hz]
    exact .inl ⟨by omega, rfl⟩

/-! ## The packer's procedure (40_packer.md R111) -/

/-- Everything `pushIndex` can do: it stops, or completes a byte, or only stores the index. -/
theorem pushIndex_cases (i : Nat) (s : State) :
    let acc := s.acc.toNat ||| i <<< s.nbits.toNat
    let nbits := s.nbits.toNat + s.width.toNat
    ((2 ^ 15 ≤ acc ∨ 16 ≤ nbits) ∧ pushIndex i s = .fault .registerRange) ∨
    (acc < 2 ^ 15 ∧ 8 ≤ nbits ∧ nbits < 16 ∧ pushIndex i s = .next
      { s with
        pko := s.pko ++ [BitVec.ofNat 8 acc]
        acc := BitVec.ofNat 15 (acc >>> 8)
        nbits := BitVec.ofNat 4 (nbits - 8) }) ∨
    (acc < 2 ^ 15 ∧ nbits < 8 ∧ pushIndex i s = .next
      { s with acc := BitVec.ofNat 15 acc, nbits := BitVec.ofNat 4 nbits }) := by
  intro acc nbits
  by_cases h : 2 ^ 15 ≤ acc ∨ 16 ≤ nbits
  · exact .inl ⟨h, if_pos h⟩
  · refine .inr ?_
    have hs : pushIndex i s = if 8 ≤ nbits then _ else _ := if_neg h
    by_cases h8 : 8 ≤ nbits
    · exact .inl ⟨by omega, h8, by omega, by rw [hs, if_pos h8]; rfl⟩
    · exact .inr ⟨by omega, by omega, by rw [hs, if_neg h8]⟩

/-- In a state that meets the bounds of 10_state.md R42 the index is stored above the valid bits: the
registers hold the result, and the or is a sum. -/
theorem pushIndex_value (i : Nat) (s : State) (hn : s.nbits.toNat ≤ 7)
    (ha : s.acc.toNat < 2 ^ s.nbits.toNat) (hw : s.width.toNat ≤ 8) (hi : i < 2 ^ s.width.toNat) :
    (s.acc.toNat ||| i <<< s.nbits.toNat) = s.acc.toNat + i * 2 ^ s.nbits.toNat ∧
    s.acc.toNat + i * 2 ^ s.nbits.toNat < 2 ^ (s.nbits.toNat + s.width.toNat) ∧
    s.acc.toNat + i * 2 ^ s.nbits.toNat < 2 ^ 15 := by
  have hlt : s.acc.toNat + i * 2 ^ s.nbits.toNat < 2 ^ (s.nbits.toNat + s.width.toNat) := by
    have : (i + 1) * 2 ^ s.nbits.toNat ≤ 2 ^ s.width.toNat * 2 ^ s.nbits.toNat :=
      Nat.mul_le_mul_right _ hi
    rw [Nat.pow_add, Nat.mul_comm (2 ^ s.nbits.toNat)]
    rw [Nat.add_mul, Nat.one_mul] at this
    omega
  have hp : 2 ^ (s.nbits.toNat + s.width.toNat) ≤ 2 ^ 15 := Nat.pow_le_pow_right (by omega) (by omega)
  refine ⟨?_, hlt, by omega⟩
  rw [Nat.shiftLeft_eq, Nat.or_comm, Nat.mul_comm, ← Nat.two_pow_add_eq_or_of_lt ha, Nat.add_comm,
    Nat.mul_comm]

/-! ## The host's events (20_memory.md R52) -/

theorem takeInput_nil {s : State} (h : s.pending = []) : takeInput s = none := by
  simp [takeInput, h]

theorem takeInput_cons {s : State} {i : Input} {rest : List Input} (h : s.pending = i :: rest) :
    takeInput s = some (i, { s with pending := rest }) := by
  simp [takeInput, h]

end Sys2Proof.Machine
end

