-- ==== Sys2Proof/Laws/PerInstr.lean ====
section
/-! SUPPORT. Statements about every instruction as syntax, one lemma a constructor. -/

namespace Sys2Proof.Laws

open Sys2Proof Sys2Proof.Machine

/-- An instruction has as many command words as its expansion has operations
(43_pseudo_ops.md R171 to R174), and at least one. -/
def WordCount.Statement (i : Instr) : Prop :=
  (encode i).length = (expand i).length ∧ 0 < (encode i).length

theorem WordCount.pkCfg (v : Variant) (k : Half) : WordCount.Statement (.pkCfg v k) := ⟨rfl, Nat.one_pos⟩
theorem WordCount.pkPush (i : Half) : WordCount.Statement (.pkPush i) := ⟨rfl, Nat.one_pos⟩
theorem WordCount.pkEnd : WordCount.Statement .pkEnd := ⟨rfl, Nat.one_pos⟩
theorem WordCount.frBegin (c : Byte) (n : Half) : WordCount.Statement (.frBegin c n) := ⟨rfl, Nat.one_pos⟩
theorem WordCount.frData (b : Byte) : WordCount.Statement (.frData b) := ⟨rfl, Nat.one_pos⟩
theorem WordCount.chBegin (size : Half) : WordCount.Statement (.chBegin size) := ⟨rfl, Nat.one_pos⟩
theorem WordCount.chData (b : Byte) : WordCount.Statement (.chData b) := ⟨rfl, Nat.one_pos⟩
theorem WordCount.illegal (w : Word) : WordCount.Statement (.illegal w) := ⟨rfl, Nat.one_pos⟩

/-- A frame has a word for its opening and one for each argument. -/
theorem encodeFrame_length (c : Byte) (args : List Byte) :
    (encodeFrame c args).length = (expandFrame c args).length ∧ 0 < (encodeFrame c args).length := by
  simp [encodeFrame, expandFrame]

theorem WordCount.wireFrame (c : Byte) (args : List Byte) :
    WordCount.Statement (.wireFrame c args) := encodeFrame_length _ _
theorem WordCount.wirePacket (size : Half) (index : Byte) (slice : List Byte) :
    WordCount.Statement (.wirePacket size index slice) := encodeFrame_length _ _
theorem WordCount.setBrightness (level : Byte) :
    WordCount.Statement (.setBrightness level) := encodeFrame_length _ _
theorem WordCount.setBoxMode (mode visual submode : Byte) :
    WordCount.Statement (.setBoxMode mode visual submode) := encodeFrame_length _ _
theorem WordCount.setRgb (r g b : Byte) : WordCount.Statement (.setRgb r g b) := encodeFrame_length _ _
theorem WordCount.drawPicture (subFrame : List Byte) :
    WordCount.Statement (.drawPicture subFrame) := encodeFrame_length _ _
theorem WordCount.anim (payload : List Byte) : WordCount.Statement (.anim payload) := by
  simp [WordCount.Statement, encode, expand, encodeAnim, expandAnim]

end Sys2Proof.Laws
end

