-- ==== Sys2Proof/Laws/Record.lean ====
section
/-! SUPPORT. The small lemmas of the record of packing transactions, and what a closed image adds to
whole outputs. -/

namespace Sys2Proof.Machine

@[simp] theorem packRecord_nil : packRecord [] = PackRecord.empty := rfl

/-- The record grows at its end, by what the last word is. -/
@[simp] theorem packRecord_append_one (ws : List Word) (w : Word) :
    packRecord (ws ++ [w]) = (packRecord ws).take (decode w) := by
  simp [packRecord]

@[simp] theorem PackRecord.take_pkCfg (r : PackRecord) (v : Variant) (k : Half) :
    r.take (.pkCfg v k) = ⟨r.closed, some ⟨v, k, []⟩⟩ := rfl

@[simp] theorem PackRecord.take_pkPush (cl : List Image) (im : Image) (i : Half) :
    PackRecord.take ⟨cl, some im⟩ (.pkPush i) =
      ⟨cl, some ⟨im.variant, im.size, im.indices ++ [i]⟩⟩ := rfl

@[simp] theorem PackRecord.take_pkEnd (cl : List Image) (im : Image) :
    PackRecord.take ⟨cl, some im⟩ .pkEnd = ⟨cl ++ [im], none⟩ := rfl

@[simp] theorem PackRecord.take_frBegin (r : PackRecord) (c : Byte) (n : Half) :
    r.take (.frBegin c n) = r := rfl

@[simp] theorem PackRecord.take_frData (r : PackRecord) (b : Byte) : r.take (.frData b) = r := rfl

@[simp] theorem PackRecord.take_chBegin (r : PackRecord) (size : Half) : r.take (.chBegin size) = r := rfl

@[simp] theorem PackRecord.take_chData (r : PackRecord) (b : Byte) : r.take (.chData b) = r := rfl

@[simp] theorem PackRecord.take_illegal (r : PackRecord) (w : Word) : r.take (.illegal w) = r := rfl

@[simp] theorem wholeImages_nil (bytes : List Byte) : WholeImages [] bytes ↔ bytes = [] := by
  constructor
  · rintro ⟨outs, he, rfl⟩
    obtain rfl : outs = [] := by simpa using he
    rfl
  · rintro rfl
    exact ⟨[], rfl, rfl⟩

/-- One more image whose `PACK` is `out` adds `out`. -/
theorem WholeImages.append_one {images : List Image} {bytes out : List Byte} {im : Image}
    (h : WholeImages images bytes) (ho : im.packed = .ok out) :
    WholeImages (images ++ [im]) (bytes ++ out) := by
  obtain ⟨outs, he, rfl⟩ := h
  exact ⟨outs ++ [out], by simp [he, ho], by simp⟩

/-- `PACK` on an accepted image: the bytes put out so far, then the tail. -/
theorem Image.packed_of_accepted {im : Image} {w : Nat} (h : im.Accepted w) :
    im.packed = .ok (im.bytesSoFar w ++ tailBytes im.variant (im.indices.length * w)
      (bitString w (im.indices.map BitVec.toNat))) := by
  obtain ⟨hw, hi⟩ := h
  have hn : ¬ ∃ i ∈ im.indices.map BitVec.toNat, im.size.toNat ≤ i := by
    rintro ⟨_, hx, hk⟩
    obtain ⟨i, him, rfl⟩ := List.mem_map.mp hx
    have := hi i him
    omega
  simp only [Image.packed, pack, hw, hn, if_false, packBytes, Image.bytesSoFar, List.length_map]

end Sys2Proof.Machine
end

