-- ==== Sys2Proof/Tests/Slice0.lean ====
section
/-! SUPPORT. The model's own tests, expected values from spec/95_test_vectors.md and the rules; and one
witness for each statement that has hypotheses: a concrete state and operands that meet them all. -/

namespace Sys2Proof.Tests

open Sys2Proof Sys2Proof.Machine

/-- The next state, where there is one. -/
def after (o : Out) : Option State :=
  match o with
  | .next s => some s
  | .fault _ => none
  | .refused _ => none

/-- A packing transaction of palette size 4 at width 2, with three indices taken in: the state of
40_packer.md R111's example before its fourth push. -/
def packing : State :=
  { State.reset with mode := .pack, psize := 4, width := 2, acc := 0x39, nbits := 6 }

/-- The same for Max at palette size 5 and width 3, 7 bits left (95_test_vectors.md P6). -/
def packingMax : State :=
  { State.reset with mode := .pack, variant := .max, psize := 5, width := 3, acc := 0x02, nbits := 7 }

/-- A frame with `n` arguments missing and the checksum so far. -/
def framing (n cs : Half) : State := { State.reset with mode := .frame, frem := n, csum := cs }

/-- A payload of 201 bytes before its 200th byte (95_test_vectors.md V-CH, the beat-level trace). -/
def chunking : State :=
  { State.reset with mode := .chunk, csum := 0x4ED5, frem := 1, ctotal := 201, crem := 2 }

/-- The same payload before its last byte. -/
def chunkingLast : State :=
  { State.reset with mode := .chunk, csum := 0x011A, frem := 1, ctotal := 201, crem := 1, cidx := 1 }

/-- The block after a fault (95_test_vectors.md P5). -/
def faulted : State :=
  { State.reset with mode := .fault, fcause := 7, fword := 0x20000000, csum := 0x004C, frem := 2 }

/-- A list of `n` zero bytes. -/
def zeros (n : Nat) : List Byte := List.replicate n 0

theorem zeros_length (n : Nat) : (zeros n).length = n := List.length_replicate

/-- A state with the host's next events. -/
def offered (s : State) (es : List Input) : State := { s with pending := es }

/-! ## Well-formedness: each check refuses an ill-formed term -/

theorem test_wf_illegal_refuses_operation : (Instr.illegal 0x10000004).wellFormed = false := by decide
theorem test_wf_illegal_accepts_zero_word : (Instr.illegal 0).wellFormed = true := by decide
theorem test_wf_frame_refuses_65536 :
    (Instr.wireFrame 0 (zeros 65536)).wellFormed = false := by
  simp only [Instr.wellFormed, maxCount, zeros_length]; decide
theorem test_wf_packet_refuses_empty : (Instr.wirePacket 0 0 []).wellFormed = false := by decide
theorem test_wf_packet_refuses_short : (Instr.wirePacket 2 0 [1]).wellFormed = false := by decide
theorem test_wf_picture_refuses_65532 :
    (Instr.drawPicture (zeros 65532)).wellFormed = false := by
  simp only [Instr.wellFormed, maxCount, zeros_length]; decide
theorem test_wf_anim_refuses_65536 : (Instr.anim (zeros 65536)).wellFormed = false := by
  simp only [Instr.wellFormed, maxCount, zeros_length]; decide

/-! ## Decoding: each row from a word or from bytes written out from its encoding -/

theorem test_decode_pkCfg : decode 0b00010000000000010000000000000100#32 = .pkCfg .max 4 := by decide
theorem test_decode_pkPush : decode 0b00100000000000000000000100000000#32 = .pkPush 256 := by decide
theorem test_decode_pkEnd : decode 0b00110000000000000000000000000000#32 = .pkEnd := by decide
theorem test_decode_frBegin :
    decode 0b01000000011011110000000000000011#32 = .frBegin 0x6F 3 := by decide
theorem test_decode_frData : decode 0b01010000000000000000000000110010#32 = .frData 0x32 := by decide
theorem test_decode_chBegin : decode 0b01100000000000001100100000000001#32 = .chBegin 51201 := by decide
theorem test_decode_chData : decode 0b01110000000000000000000010111011#32 = .chData 0xBB := by decide
/-- 95_test_vectors.md V-D: reserved bits and unassigned numbers. -/
theorem test_decode_illegal :
    [0x00000000#32, 0xFFFFFFFF#32, 0x80000000#32, 0x11000004#32, 0x10020004#32, 0x20010000#32,
      0x30000001#32, 0x50000100#32, 0x70000100#32, 0x60010000#32, 0x4F000000#32].all
      (fun w => decide (decode w = .illegal w)) = true := by decide
/-- V-FR2. -/
theorem test_decode_setBrightness :
    decodeWire [0x01, 0x04, 0x00, 0x74, 0x64, 0xDC, 0x00, 0x02] = some (.setBrightness 0x64) := by decide
/-- V-FR6. -/
theorem test_decode_setBoxMode :
    decodeWire [0x01, 0x06, 0x00, 0x45, 0x01, 0x02, 0x03, 0x51, 0x00, 0x02] =
      some (.setBoxMode 1 2 3) := by decide
/-- V-FR8. -/
theorem test_decode_setRgb :
    decodeWire [0x01, 0x06, 0x00, 0x6F, 0xFF, 0xFF, 0xFF, 0x72, 0x03, 0x02] =
      some (.setRgb 255 255 255) := by decide
/-- V-FR12. -/
theorem test_decode_wireFrame :
    decodeWire [0x01, 0x05, 0x00, 0x01, 0x01, 0x02, 0x09, 0x00, 0x02] =
      some (.wireFrame 1 [1, 2]) := by decide
/-- V-CH4. -/
theorem test_decode_wirePacket :
    decodeWire [0x01, 0x09, 0x00, 0x49, 0x03, 0x00, 0x00, 0x00, 0x01, 0x02, 0x58, 0x00, 0x02] =
      some (.wirePacket 3 0 [0, 1, 2]) := by decide
/-- 30_encoding.md R85, with an empty SubFrame: checksum `0x07 + 0x44 + 0x18 = 0x63`. -/
theorem test_decode_drawPicture :
    decodeWire [0x01, 0x07, 0x00, 0x44, 0x00, 0x0A, 0x0A, 0x04, 0x63, 0x00, 0x02] =
      some (.drawPicture []) := by decide
/-- V-CH3. -/
theorem test_decode_anim :
    decodeAnim [0x01, 0x08, 0x00, 0x49, 0x02, 0x00, 0x00, 0x00, 0x01, 0x54, 0x00, 0x02] =
      some (.anim [0, 1]) := by decide
/-- A corrupted byte is refused (95_test_vectors.md S3). -/
theorem test_decode_corrupted_frame :
    decodeWire [0x01, 0x04, 0x00, 0x74, 0x33, 0xAA, 0x00, 0x02] = none := by decide
theorem test_decodeTableWord : decodeTableWord 32 0x600001C2 = some (.chBegin 450) := by decide
theorem test_withFetchWord_runs :
    (after (step (State.reset.withFetchWord 32 0x60000002))).map (fun t => (t.txo, t.pending)) =
      some ([0x01, 0x08, 0x00, 0x49, 0x02, 0x00, 0x00], []) := by decide
theorem test_assemble_refuses_spill : assemble (.frData 256) = none := by decide

/-! ## One step of each instruction -/

/-- V-W. -/
theorem test_pkCfg_width :
    (after (exec (.pkCfg .max 129) State.reset)).map
      (fun t => (t.mode, t.variant, t.psize, t.width)) = some (.pack, .max, 129, 8) := by decide
theorem test_pkCfg_classic_17 :
    (after (exec (.pkCfg .classic 17) State.reset)).map (fun t => (t.mode, t.fcause, t.fword, t.psize)) =
      some (.fault, 1, 0x10000011, 0) := by decide
/-- 40_packer.md R111's example. -/
theorem test_pkPush_completes_byte :
    (after (exec (.pkPush 0) packing)).map (fun t => (t.pko, t.acc, t.nbits)) =
      some ([0x39], 0, 0) := by decide
/-- V-PK34's check at the palette size. -/
theorem test_pkPush_index_range :
    (after (exec (.pkPush 4) packing)).map (fun t => (t.mode, t.fcause, t.fword, t.acc, t.pko)) =
      some (.fault, 5, 0x20000004, 0x39, []) := by decide
/-- P6. -/
theorem test_pkEnd_max_tail :
    (after (exec .pkEnd packingMax)).map (fun t => (t.pko, t.mode, t.acc, t.nbits)) =
      some ([0x02], .idle, 0, 0) := by decide
theorem test_pkEnd_classic_drops :
    (after (exec .pkEnd packing)).map (fun t => (t.pko, t.mode)) = some ([], .idle) := by decide
/-- V-FR11. -/
theorem test_frBegin_no_arguments :
    (after (exec (.frBegin 0xFF 0) State.reset)).map (fun t => (t.txo, t.mode)) =
      some ([0x01, 0x03, 0x00, 0xFF, 0x02, 0x01, 0x02], .idle) := by decide
/-- V-FR19. -/
theorem test_frBegin_too_large :
    (after (exec (.frBegin 0 65533) State.reset)).map (fun t => (t.mode, t.fcause, t.fword, t.txo)) =
      some (.fault, 2, 0x4000FFFD, []) := by decide
/-- V-FR1. -/
theorem test_frData_last :
    (after (exec (.frData 0x32) (framing 1 0x78))).map (fun t => (t.txo, t.csum, t.frem, t.mode)) =
      some ([0x32, 0xAA, 0x00, 0x02], 0xAA, 0, .idle) := by decide
/-- V-FR16's wrap: `0xFF04 + 0xFF` is `0x0003` modulo 65536. -/
theorem test_frData_checksum_wraps :
    (after (exec (.frData 0xFF) (framing 2 0xFF04))).map (fun t => (t.csum, t.mode)) =
      some (0x0003, .frame) := by decide
/-- 42_chunker.md R158's example. -/
theorem test_chBegin_450 :
    (after (exec (.chBegin 450) State.reset)).map (fun t => (t.txo, t.csum, t.frem, t.crem)) =
      some ([0x01, 0xCE, 0x00, 0x49, 0xC2, 0x01, 0x00], 0x01DA, 200, 450) := by decide
theorem test_chBegin_51201 :
    (after (exec (.chBegin 51201) State.reset)).map (fun t => (t.mode, t.fcause, t.ctotal)) =
      some (.fault, 6, 0) := by decide
/-- V-CH6, step 200. -/
theorem test_chData_next_packet :
    (after (exec (.chData 0xC7) chunking)).map (fun t => (t.txo, t.csum, t.cidx, t.frem, t.crem)) =
      some ([0xC7, 0x9C, 0x4F, 0x02, 0x01, 0x07, 0x00, 0x49, 0xC9, 0x00, 0x01], 0x011A, 1, 1, 1) := by
  decide
/-- V-CH6, step 201. -/
theorem test_chData_payload_end :
    (after (exec (.chData 0xC8) chunkingLast)).map (fun t => (t.txo, t.csum, t.mode)) =
      some ([0xC8, 0xE2, 0x01, 0x02], 0x01E2, .idle) := by decide
theorem test_illegal :
    (after (exec (.illegal 0x11000000) packing)).map (fun t => (t.mode, t.fcause, t.fword, t.acc)) =
      some (.fault, 8, 0x11000000, 0x39) := by decide
theorem test_wireFrame :
    (after (exec (.wireFrame 1 [1, 2]) State.reset)).map (fun t => (t.txo, t.mode)) =
      some ([0x01, 0x05, 0x00, 0x01, 0x01, 0x02, 0x09, 0x00, 0x02], .idle) := by decide
theorem test_wirePacket :
    (after (exec (.wirePacket 201 1 [0xC8]) State.reset)).map (fun t => t.txo) =
      some [0x01, 0x07, 0x00, 0x49, 0xC9, 0x00, 0x01, 0xC8, 0xE2, 0x01, 0x02] := by decide
theorem test_setBrightness :
    (after (exec (.setBrightness 0xFF) State.reset)).map (fun t => t.txo) =
      some [0x01, 0x04, 0x00, 0x74, 0xFF, 0x77, 0x01, 0x02] := by decide
theorem test_setBoxMode :
    (after (exec (.setBoxMode 1 2 3) State.reset)).map (fun t => t.txo) =
      some [0x01, 0x06, 0x00, 0x45, 0x01, 0x02, 0x03, 0x51, 0x00, 0x02] := by decide
theorem test_setRgb :
    (after (exec (.setRgb 255 0 16) State.reset)).map (fun t => (t.txo, t.csum)) =
      some ([0x01, 0x06, 0x00, 0x6F, 0xFF, 0x00, 0x10, 0x84, 0x01, 0x02], 0x0184) := by decide
theorem test_drawPicture :
    (after (exec (.drawPicture []) State.reset)).map (fun t => t.txo) =
      some [0x01, 0x07, 0x00, 0x44, 0x00, 0x0A, 0x0A, 0x04, 0x63, 0x00, 0x02] := by decide
/-- 42_chunker.md R159's example. -/
theorem test_anim :
    (after (exec (.anim [0xAA, 0xBB]) State.reset)).map (fun t => (t.txo, t.mode)) =
      some ([0x01, 0x08, 0x00, 0x49, 0x02, 0x00, 0x00, 0xAA, 0xBB, 0xB8, 0x01, 0x02], .idle) := by decide
/-- V-X: an operation out of turn; decoding comes before admission, admission before operands. -/
theorem test_priority :
    (after (exec (.pkCfg .classic 0) packing)).map (fun t => t.fcause) = some 7 ∧
    (after (exec (.frBegin 0 0xFFFD) (framing 2 0))).map (fun t => t.fcause) = some 7 := by decide
/-- V-PK29, V-PK30: one colour under each policy. -/
theorem test_one_colour :
    pack .minWidth1 .classic 1 [0, 0, 0, 0, 0, 0, 0, 0] = .ok [0x00] ∧
    pack .minWidth1 .max 1 [0, 0, 0, 0, 0, 0, 0, 0, 0] = .ok [0x00, 0x00] ∧
    pack .reject .classic 1 [0] = .fault .singleColor := by decide
/-- V-PK11, V-PK22, V-PK14 at the transaction level. -/
theorem test_pack_vectors :
    pack .reject .classic 8 [1, 2, 3, 4, 5, 6, 7, 0] = .ok [0xD1, 0x58, 0x1F] ∧
    pack .reject .max 65 (List.replicate 8 64) = .ok [0x40, 0x20, 0x10, 0x08, 0x04, 0x02, 0x81] ∧
    pack .reject .max 5 [4, 3, 2, 1, 0] = .ok [0x9C, 0x02] := by decide
theorem test_reset_event :
    (after (step (offered faulted [.reset]))).map (fun t => (t.mode, t.fcause, t.fword, t.frem)) =
      some (.idle, 0, 0, 0) := by decide
theorem test_fault_ignores :
    (after (step (offered faulted [.word 0x50000002]))) = some faulted := by decide

/-! ## Witnesses: the hypotheses of each statement, met by a concrete state and operands -/

theorem inv_packing : Inv packing := by constructor <;> decide
theorem inv_packingMax : Inv packingMax := by constructor <;> decide
theorem inv_framing : Inv (framing 1 0x78) := by constructor <;> decide
theorem inv_chunking : Inv chunking := by constructor <;> decide
theorem inv_chunkingLast : Inv chunkingLast := by constructor <;> decide
theorem inv_faulted : Inv faulted := by constructor <;> decide
theorem inv_idle : Inv State.reset := by constructor <;> decide
/-- A word offered changes no register, so the invariant stays. -/
theorem inv_offered {s : State} (h : Inv s) (es : List Input) : Inv (offered s es) :=
  ⟨h.noFault, h.faultCode, h.bits, h.palette, h.indexWidth, h.quiet, h.openFrame, h.openPayload,
    h.openPacket⟩

theorem witness_ResetEventAloneLeavesFault :
    (offered faulted [.reset]).pending = .reset :: [] ∧ (offered faulted [.reset]).mode = .fault ∧
    step (offered faulted [.reset]) = .next State.reset ∧ State.reset.mode ≠ .fault :=
  ⟨rfl, rfl, rfl, by decide⟩
theorem witness_StepRunsDecodedWord :
    (offered packing [.word 0x20000000]).pending = .word 0x20000000 :: [] ∧ packing.pending = [] := by
  decide
theorem witness_DecodeOfEncodeIsExpansion :
    (Instr.illegal 0xFFFFFFFF).wellFormed = true ∧ (Instr.wirePacket 1 0 [7]).wellFormed = true ∧
    (Instr.wireFrame 0 (zeros 65535)).wellFormed = true ∧
    (Instr.anim (zeros 65535)).wellFormed = true ∧
    (Instr.drawPicture (zeros 65531)).wellFormed = true := by
  refine ⟨by decide, by decide, ?_, ?_, ?_⟩ <;>
    (simp only [Instr.wellFormed, maxCount, zeros_length]; decide)
theorem witness_FrameReadsBack :
    ([] : List Byte).length ≤ 65532 ∧ (zeros 65532).length ≤ 65532 :=
  ⟨by decide, (zeros_length _).le⟩
theorem witness_WireRowsReadBack :
    (zeros 65528).length ≤ 65528 ∧ packetFits 201 1 [0xC8] = true := by
  exact ⟨(zeros_length _).le, by decide⟩
/-- The clauses on rows without an encoding. -/
theorem witness_WireRowsReadBack_none :
    65532 < (zeros 65533).length ∧ 65528 < (zeros 65529).length ∧
    packetFits 201 1 [0xC8, 0xC9] = false ∧ 51200 < (zeros 51201).length := by
  simp only [zeros_length]; decide
theorem witness_AnimReadsBack :
    ([] : List Byte).length ≤ 51200 ∧ (zeros 51200).length ≤ 51200 :=
  ⟨by decide, (zeros_length _).le⟩
theorem witness_PkCfgOpensPacking :
    State.reset.mode = .idle ∧ 2 ≤ (2 : Half).toNat ∧ (16 : Half).toNat ≤ 16 ∧
    (256 : Half).toNat ≤ 256 := by decide
theorem witness_PkCfgPaletteFaults :
    State.reset.mode = .idle ∧ (0 : Half).toNat = 0 ∧ 16 < (17 : Half).toNat ∧
    256 < (257 : Half).toNat ∧ (1 : Half).toNat = 1 := by decide
theorem witness_ClogIsSmallestExponent : 1 ≤ 1 ∧ 256 ≤ 2 ^ 8 := by decide
theorem witness_PkPushStoresIndex :
    Inv packing ∧ packing.mode = .pack ∧ (3 : Half).toNat < packing.psize.toNat ∧
    8 ≤ packing.nbits.toNat + packing.width.toNat :=
  ⟨inv_packing, by decide, by decide, by decide⟩
/-- The other branch of the same statement: two bits, no byte yet. -/
theorem witness_PkPushStoresIndex_inside :
    Inv { packing with acc := 1, nbits := 2 } ∧ ¬ 8 ≤ (2 : BitVec 4).toNat + packing.width.toNat :=
  ⟨by constructor <;> decide, by decide⟩
theorem witness_PkPushRefusesIndexOutOfRange :
    packing.mode = .pack ∧ packing.psize.toNat ≤ (4 : Half).toNat := by decide
theorem witness_PkEndAppliesTailPolicy :
    packingMax.mode = .pack ∧ packingMax.variant = .max ∧ 0 < packingMax.nbits.toNat := by decide
/-- Palette size 4 has width 2 under either policy. -/
theorem width_of_four (policy : K1Policy) : widthOf policy .classic (4 : Half).toNat = .ok 2 := by
  cases policy <;> decide

theorem witness_PackTransactionComputesPack_state :
    State.reset.mode = .idle ∧ widthOf Config.k1Policy .classic (4 : Half).toNat = .ok 2 ∧
    ∀ i ∈ [(3 : Half), 0], i.toNat < (4 : Half).toNat := by
  exact ⟨rfl, width_of_four _, by simp⟩
theorem witness_PackTransactionComputesPack :
    let s := offered State.reset ((encodePack .classic 4 [1, 2]).map .word)
    s.mode = .idle ∧ s.pending = (encodePack .classic 4 [1, 2]).map .word ++ [] := by
  constructor <;> rfl
theorem witness_FaultedPackKeepsEarlierBytes :
    let s := offered State.reset ((encodePack .classic 4 ([1] ++ 4 :: [2])).map .word)
    s.mode = .idle ∧ widthOf Config.k1Policy .classic (4 : Half).toNat = .ok 2 ∧
    (∀ x ∈ [(1 : Half)], x.toNat < (4 : Half).toNat) ∧ (4 : Half).toNat ≤ (4 : Half).toNat ∧
    s.pending = (encodePack .classic 4 ([1] ++ 4 :: [2])).map .word ++ [] := by
  exact ⟨rfl, width_of_four _, by simp, by decide, rfl⟩
theorem witness_PackOutputLength :
    widthOf .reject .max 5 = .ok 3 ∧ pack .reject .max 5 [4, 3, 2, 1, 0] = .ok [0x9C, 0x02] ∧
    widthOf .reject .classic 16 = .ok 4 ∧ pack .reject .classic 16 [1, 2, 3] = .ok [0x21] ∧
    1 ≤ 1 ∧ 8 ≤ 8 := by decide
theorem witness_PackRoundTrip :
    widthOf .reject .max 16 = .ok 4 ∧ pack .reject .max 16 [1, 2, 3] = .ok [0x21, 0x03] ∧
    widthOf .reject .classic 16 = .ok 4 ∧ pack .reject .classic 16 [1, 2] = .ok [0x21] ∧
    [1, 2].length * 4 % 8 = 0 := by decide
theorem witness_WholeBytesGrowWithIndices : ∀ x ∈ [1, 2, 3] ++ [0], x < 2 ^ 2 := by decide
theorem witness_SingleColorPolicies :
    (∀ i ∈ List.replicate 9 0, i = 0) ∧ (∃ i ∈ [0, 1], i ≠ 0) := by decide
theorem witness_FrBeginOpensFrame :
    State.reset.mode = .idle ∧ (0 : Half).toNat ≤ 65532 ∧ (65532 : Half).toNat ≤ 65532 := by decide
theorem witness_CountAboveLimitFaults :
    State.reset.mode = .idle ∧ 65533 ≤ (65533 : Half).toNat ∧ 51201 ≤ (51201 : Half).toNat := by decide
theorem witness_FrDataPassesByte :
    (framing 1 0x78).mode = .frame ∧ 1 ≤ (framing 1 0x78).frem.toNat ∧
    1 ≤ (framing 65532 0).frem.toNat := by decide
theorem witness_FrameTransactionComputesFrame :
    (let s := offered State.reset ((encodeFrame 0x74 [0x32]).map .word)
    s.mode = .idle ∧ [0x32#8].length ≤ 65535 ∧
    s.pending = (encodeFrame 0x74 [0x32]).map .word ++ []) ∧
    65535 < (zeros 65536).length := by
  exact ⟨⟨rfl, by decide, rfl⟩, by rw [zeros_length]; decide⟩
/-- The faulting count of the same statement. -/
theorem witness_FrameTransactionComputesFrame_long (args : List Byte) (h : args.length = 65533) :
    (offered State.reset ((encodeFrame 0 args).map .word)).pending =
      (encodeFrame 0 args).map .word ++ [] ∧ args.length ≤ 65535 := by
  refine ⟨by simp [offered], by omega⟩
theorem witness_FrameStateAfterArguments :
    State.reset.mode = .idle ∧ [0x32#8].length < (2 : Half).toNat ∧ (2 : Half).toNat ≤ 65532 := by
  decide
theorem witness_FrameIgnoresEarlierFrame :
    State.reset.mode = .idle ∧ (65532 : Half).toNat ≤ 65532 ∧ (zeros 65532).length ≤ 65532 ∧
    1 ≤ [0xAA#8].length ∧ (zeros 51200).length ≤ 51200 :=
  ⟨rfl, by decide, (zeros_length _).le, by decide, (zeros_length _).le⟩
theorem witness_ChecksumFindsAnyOneByteChange :
    [0x32#8].length ≤ 65532 ∧ 1 ≤ 6 ∧ 6 ≤ [0x32#8].length + 5 ∧
    (frameBytes 0x74 [0x32]).getD 6 0 ≠ (0x01 : Byte) := by decide
theorem witness_ChecksumWrapsFrom256Arguments :
    (zeros 255).length ≤ 255 ∧ (zeros 65532).length ≤ 65532 :=
  ⟨(zeros_length _).le, (zeros_length _).le⟩
theorem witness_WireFramePutsFrame : State.reset.mode = .idle := rfl
theorem witness_FixedCommandsPutTheirFrames : State.reset.mode = .idle := rfl
theorem witness_DrawPicturePutsFrame :
    State.reset.mode = .idle ∧ (zeros 65528).length ≤ 65528 := by
  exact ⟨rfl, (zeros_length _).le⟩
theorem witness_WirePacketPutsFrame :
    State.reset.mode = .idle ∧ 1 ≤ [0xC8#8].length ∧ (zeros 200).length ≤ 200 := by
  exact ⟨rfl, by decide, (zeros_length _).le⟩
theorem witness_AnimPutsPacketFrames :
    State.reset.mode = .idle ∧ ([] : List Byte).length = 0 ∧ (zeros 51200).length ≤ 51200 ∧
    (zeros 65535).length ≤ 65535 := by
  exact ⟨rfl, rfl, (zeros_length _).le, (zeros_length _).le⟩
theorem witness_InstructionIsRunOfItsWords :
    (Instr.setBrightness 0x32).wellFormed = true ∧
    (after (exec (.setBrightness 0x32) { State.reset with pending := [.reset] })).isSome = true := by
  decide
theorem witness_ChBeginOpensFirstPacket :
    State.reset.mode = .idle ∧ (0 : Half).toNat ≤ 51200 ∧ (51200 : Half).toNat ≤ 51200 := by decide
/-- The two branches at a packet's end. -/
theorem witness_ChDataPassesByte :
    Inv chunking ∧ chunking.mode = .chunk ∧ Inv chunkingLast ∧ chunkingLast.mode = .chunk :=
  ⟨inv_chunking, rfl, inv_chunkingLast, rfl⟩
/-- The branch inside a packet. -/
theorem witness_ChDataPassesByte_inside :
    Inv { chunking with frem := 200, crem := 201 } ∧ 2 ≤ (200 : Half).toNat :=
  ⟨by constructor <;> decide, by decide⟩
theorem witness_AnimTransactionComputesAnim :
    (let s := offered State.reset ((encodeAnim [0xAA, 0xBB]).map .word)
    s.mode = .idle ∧ [0xAA#8, 0xBB].length ≤ 65535 ∧
    s.pending = (encodeAnim [0xAA, 0xBB]).map .word ++ []) ∧
    65535 < (zeros 65536).length := by
  exact ⟨⟨rfl, by decide, rfl⟩, by rw [zeros_length]; decide⟩
theorem witness_ChunkStateAfterBytes :
    State.reset.mode = .idle ∧ 1 < [0xAA#8, 0xBB].length ∧ [0xAA#8, 0xBB].length ≤ 51200 := by decide
theorem witness_PacketsReassemble :
    chunk [0xAA, 0xBB] = .ok [[0x02, 0x00, 0x00, 0xAA, 0xBB]] ∧
    0 < [[0x02#8, 0x00, 0x00, 0xAA, 0xBB]].length := by decide
theorem witness_PacketsFilledInOrder :
    chunk [0xAA, 0xBB] = .ok [[0x02, 0x00, 0x00, 0xAA, 0xBB]] ∧
    0 < [[0x02#8, 0x00, 0x00, 0xAA, 0xBB]].length := by decide
/-- The clause on a packet that is not the last: 201 bytes have two. -/
theorem witness_PacketsFilledInOrder_full :
    chunk (zeros 201) = .ok (packets (zeros 201)) ∧ 0 + 1 < (packets (zeros 201)).length :=
  ⟨if_neg (by rw [zeros_length]; decide), by simp [packets, zeros_length, ceilDiv, Config.chunkMax]⟩
theorem witness_AnimOutputSize :
    [0xAA#8, 0xBB].length ≤ 51200 ∧ 0 < (packets [0xAA, 0xBB]).length := by decide
theorem witness_OperationOutOfTurnFaults :
    admittingMode (.frData 2) = some .frame ∧ encode (.frData 2) = [0x50000002] ∧
    packing.mode ≠ .frame ∧ packing.mode ≠ .fault := by decide
/-- The clause on a pseudo-operation. -/
theorem witness_OperationOutOfTurnFaults_pseudo :
    (Instr.setBrightness 0x32).isOperation = false ∧ (Instr.setBrightness 0x32).wellFormed = true ∧
    encode (.setBrightness 0x32) = 0x40740001 :: [0x50000032] ∧
    packing.mode ≠ .idle ∧ packing.mode ≠ .fault := by decide
/-- One state for each clause; none of them meets the invariants. -/
theorem witness_NumbersOutsideRegistersStop :
    (let s := { packing with nbits := 15, width := 8 }
    s.mode = .pack ∧ (3 : Half).toNat < s.psize.toNat ∧ 16 ≤ s.nbits.toNat + s.width.toNat) ∧
    ((framing 0 0).mode = .frame ∧ (framing 0 0).frem = 0) ∧
    (let s := { chunking with cidx := 255 }
    s.mode = .chunk ∧ s.frem = 1 ∧ s.crem.toNat ≠ 1 ∧ s.cidx = 255) := by decide
theorem witness_IllegalWordFaults :
    packing.mode ≠ .fault ∧ opcodeRows.filter (matchesRow 0x11000000) = [] ∧
    (offered packing [.word 0x11000000]).mode ≠ .fault ∧
    (offered packing [.word 0x11000000]).pending = .word 0x11000000 :: [] := by decide
theorem witness_FaultModeIgnoresWords :
    (offered faulted [.word 0]).mode = .fault ∧
    (offered faulted [.word 0]).pending = .word 0 :: [] ∧ (Instr.anim [1]).wellFormed = true := by
  decide
theorem witness_StepTakesFirstFault :
    let s := offered packing [.word 0x20000004]
    Inv s ∧ s.mode ≠ .fault ∧ s.pending = .word 0x20000004 :: [] ∧
    faultOf 0x20000004 s = some .indexRange ∧ faultOf 0x20000003 s = none :=
  ⟨inv_offered inv_packing _, by decide, rfl, by decide, by decide⟩
/-- The clause on `FAULT`. -/
theorem witness_StepTakesFirstFault_ignored :
    Inv (offered faulted [.word 0]) ∧ (offered faulted [.word 0]).mode = .fault :=
  ⟨inv_offered inv_faulted _, rfl⟩
theorem witness_FaultEntryIsPrecise :
    let s := offered packing [.word 0x20000004]
    s.mode ≠ .fault ∧ s.pending = .word 0x20000004 :: [] ∧
    (after (step s)).map (fun t => t.mode) = some .fault := by decide
theorem witness_OperationsKeepOtherRegisters :
    (after (exec (.pkPush 3) packing)).map (fun t => t.mode) = some .pack ∧
    (after (exec (.chData 1) chunking)).map (fun t => t.mode) = some .chunk := by decide
theorem witness_FramingIgnoresVariant :
    (after (exec (.chBegin 2) State.reset)).isSome = true ∧ (∀ u k, Instr.chBegin 2 ≠ .pkCfg u k) ∧
    (∀ x, Instr.chBegin 2 ≠ .pkPush x) ∧ Instr.chBegin 2 ≠ .pkEnd := by
  refine ⟨by decide, ?_, ?_, by decide⟩ <;> intros <;> simp
theorem witness_StepKeepsInvariant :
    Inv (offered chunking [.word 0x700000C7]) ∧
    (after (step (offered chunking [.word 0x700000C7]))).isSome = true :=
  ⟨inv_offered inv_chunking _, by decide⟩
theorem witness_InvariantStatesNeverStop : Inv packingMax := inv_packingMax
theorem witness_StreamsOnlyGrow :
    (after (step (offered packing [.reset]))).isSome = true ∧
    (offered packing [.reset]).pending = .reset :: [] := by decide
theorem witness_StepEmitsAtMostElevenBytes :
    (after (step (offered chunking [.word 0x700000C7]))).map (fun t => t.txo.length) = some 11 := by
  decide
theorem witness_TxoStaysWholeFramesAndOneOpen :
    let s := offered { framing 1 0x78 with txo := [0x01, 0x04, 0x00, 0x74] } [.word 0x50000032]
    Inv s ∧ TxoShape s ∧ s.pending = .word 0x50000032 :: [] ∧ (after (step s)).isSome = true := by
  refine ⟨by constructor <;> decide, ?_, rfl, by decide⟩
  exact ⟨0x74, [], [], ⟨[], by simp, rfl⟩, by decide, by decide, by decide, by decide⟩
theorem witness_FinishedRunOutputsAreWhole :
    let ws := [0x10000004#32, 0x20000001, 0x30000000, 0x40000000]
    (after (Sys2Proof.core.run ws.length (offerWords ws State.reset))).map runOutcome =
      some .finished ∧
    (packRecord ws).closed = [{ variant := .classic, size := 4, indices := [1] }] := by decide
/-- An open image of four colours with the indices 1, 2, 3 given, as `packing` has it. -/
def openImage : Image := { variant := .classic, size := 4, indices := [1, 2, 3] }

theorem openImage_accepted : openImage.Accepted 2 := by
  constructor
  · simpa only [openImage] using width_of_four Config.k1Policy
  · simp [openImage]

theorem openImage_open : openImage.OpenIn 2 packing := by
  refine ⟨?_, ?_, ?_, ?_, ?_⟩ <;> decide

/-- The hypotheses of the step's clause. -/
theorem witness_FinishedRunOutputsAreWhole_step :
    PkoShape { closed := [], opened := some openImage } (offered packing [.word 0x20000000]) ∧
    (offered packing [.word 0x20000000]).pending = .word 0x20000000 :: [] ∧
    (after (step (offered packing [.word 0x20000000]))).map (fun t => t.mode) = some .pack :=
  ⟨⟨openImage, 2, [], rfl, openImage_accepted, openImage_open, ⟨[], rfl, rfl⟩, by decide⟩, rfl,
    by decide⟩

end Sys2Proof.Tests
end

/-! PROOF. The invariant of 10_state.md R42 through every operation: what it asks in each mode, the
facts about widths and packets that it turns on, and one lemma for each operation. -/

namespace Sys2Proof.Proofs

open Sys2Proof Sys2Proof.Machine

/-! ## The integer logarithm (00_scope.md R14) -/

theorem clog2From_eq {k fuel b : Nat} (h : Nat.clog 2 k ≤ b + fuel) :
    clog2From k fuel b = max b (Nat.clog 2 k) := by
  induction fuel generalizing b with
  | zero => simpa [clog2From] using h
  | succ fuel ih =>
    have hk : k ≤ 2 ^ b ↔ Nat.clog 2 k ≤ b := (Nat.clog_le_iff_le_pow Nat.one_lt_two).symm
    by_cases hb : k ≤ 2 ^ b
    · rw [clog2From, if_pos hb, max_eq_left (hk.mp hb)]
    · rw [clog2From, if_neg hb, ih (by omega)]
      omega

/-- The model's search finds the library's logarithm, so the library's lemmas speak of `clog2`. -/
theorem clog2_eq_clog (k : Nat) : clog2 k = Nat.clog 2 k := by
  have hk : Nat.clog 2 k ≤ k := Nat.clog_le_of_le_pow Nat.lt_two_pow_self.le
  simpa [clog2] using clog2From_eq (b := 0) (fuel := k) (by omega)

/-- The width of one index in a palette of `k` colours (40_packer.md R102, R103). -/
def paletteBits (k : Nat) : Nat := if k = 1 then 1 else clog2 k

/-- The variants' palettes have at most 256 colours, so an index has 1 to 8 bits. -/
theorem paletteBits_bounds {k : Nat} (hk : 1 ≤ k) (hk' : k ≤ 256) :
    1 ≤ paletteBits k ∧ paletteBits k ≤ 8 := by
  by_cases h1 : k = 1
  · simp [paletteBits, h1]
  · have hpos : 0 < Nat.clog 2 k := Nat.clog_pos Nat.one_lt_two (by omega)
    have hle : Nat.clog 2 k ≤ 8 := Nat.clog_le_of_le_pow hk'
    simp only [paletteBits, h1, if_false, clog2_eq_clog]
    exact ⟨hpos, hle⟩

theorem le_two_pow_paletteBits (k : Nat) : k ≤ 2 ^ paletteBits k := by
  by_cases h1 : k = 1
  · simp [paletteBits, h1]
  · simpa only [paletteBits, h1, if_false, clog2_eq_clog] using Nat.le_pow_clog Nat.one_lt_two k

theorem maxPal_le (v : Variant) : Config.maxPal v ≤ 256 := by cases v <;> decide

/-- An accepted palette passed every check of 40_packer.md R104. -/
theorem widthOf_eq_ok {p : K1Policy} {v : Variant} {k w : Nat} (h : widthOf p v k = .ok w) :
    1 ≤ k ∧ k ≤ Config.maxPal v ∧ w = paletteBits k := by
  unfold widthOf at h
  split at h
  · cases h
  · split at h
    · cases h
    · split at h
      · cases h
      · cases h
        exact ⟨by omega, by omega, rfl⟩

/-! ## The invariant, mode by mode -/

/-- The counters of an open payload, as numbers: `total` bytes in all, `rem` of them missing, packet
`index` open with `frem` bytes missing (10_state.md R42, its last clause). -/
structure PacketCounts (total rem index frem : Nat) : Prop where
  remPos : 1 ≤ rem
  remLe : rem ≤ total
  totalLe : total ≤ 51200
  fremPos : 1 ≤ frem
  fremLe : frem ≤ 200
  indexEq : index = (total - rem) / 200
  fremEq : frem + (total - rem) % 200 = min 200 (total - 200 * index)

section Modes

variable {s : State}

theorem inv_of_idle (hm : s.mode = .idle) (hfault : s.fcause = 0 ∧ s.fword = 0)
    (hquiet : s.nbits = 0 ∧ s.acc = 0) : Inv s := by
  constructor <;> simp [hm, hfault, hquiet]

theorem inv_of_pack (hm : s.mode = .pack) (hfault : s.fcause = 0 ∧ s.fword = 0)
    (hbits : s.nbits.toNat ≤ 7 ∧ s.acc.toNat < 2 ^ s.nbits.toNat)
    (hpal : 1 ≤ s.psize.toNat ∧ s.psize.toNat ≤ Config.maxPal s.variant)
    (hwidth : s.width.toNat = paletteBits s.psize.toNat) : Inv s := by
  obtain ⟨hk, hk'⟩ := hpal
  obtain ⟨hw, hw'⟩ := paletteBits_bounds hk (hk'.trans (maxPal_le _))
  rw [← hwidth] at hw hw'
  exact
    { noFault := fun _ => hfault
      faultCode := by simp [hm]
      bits := hbits
      palette := fun _ => ⟨hk, hk'⟩
      indexWidth := fun _ => ⟨hw, hw', hwidth⟩
      quiet := by simp [hm]
      openFrame := by simp [hm]
      openPayload := by simp [hm]
      openPacket := by simp [hm] }

theorem inv_of_frame (hm : s.mode = .frame) (hfault : s.fcause = 0 ∧ s.fword = 0)
    (hquiet : s.nbits = 0 ∧ s.acc = 0) (hfrem : 1 ≤ s.frem.toNat ∧ s.frem.toNat ≤ 65532) :
    Inv s := by
  constructor <;> simp [hm, hfault, hquiet, hfrem]

theorem inv_of_chunk (hm : s.mode = .chunk) (hfault : s.fcause = 0 ∧ s.fword = 0)
    (hquiet : s.nbits = 0 ∧ s.acc = 0)
    (hcounts : PacketCounts s.ctotal.toNat s.crem.toNat s.cidx.toNat s.frem.toNat) : Inv s := by
  obtain ⟨hrem, hle, htotal, hfrem, hfrem', hindex, hmissing⟩ := hcounts
  exact
    { noFault := fun _ => hfault
      faultCode := by simp [hm]
      bits := by simp [hquiet]
      palette := by simp [hm]
      indexWidth := by simp [hm]
      quiet := fun _ => hquiet
      openFrame := by simp [hm]
      openPayload := fun _ => ⟨hrem, hle, htotal⟩
      openPacket := fun _ => ⟨hfrem, hfrem', hindex, hmissing⟩ }

theorem packetCounts_of_inv (h : Inv s) (hm : s.mode = .chunk) :
    PacketCounts s.ctotal.toNat s.crem.toNat s.cidx.toNat s.frem.toNat := by
  obtain ⟨hrem, hle, htotal⟩ := h.openPayload hm
  obtain ⟨hfrem, hfrem', hindex, hmissing⟩ := h.openPacket hm
  exact ⟨hrem, hle, htotal, hfrem, hfrem', hindex, hmissing⟩

end Modes

theorem inv_reset : Inv State.reset := inv_of_idle rfl ⟨rfl, rfl⟩ ⟨rfl, rfl⟩

theorem inv_resetRegisters (s : State) : Inv (resetRegisters s) :=
  inv_of_idle rfl ⟨rfl, rfl⟩ ⟨rfl, rfl⟩

theorem causeCode_bounds (f : Cause) : 1 ≤ (causeCode f).toNat ∧ (causeCode f).toNat ≤ 8 := by
  cases f <;> decide

/-- Taking a fault leaves the packer's bits, which is all that R42 asks beside the cause's code. -/
theorem inv_raise {s : State} (h : Inv s) (f : Cause) (w : Word) : Inv (raise f w s) where
  noFault := by simp
  faultCode := fun _ => causeCode_bounds f
  bits := h.bits
  palette := by simp
  indexWidth := by simp
  quiet := by simp
  openFrame := by simp
  openPayload := by simp
  openPacket := by simp

/-- The invariant does not speak of the host's events. -/
theorem inv_withPending {s : State} (h : Inv s) (rest : List Input) :
    Inv { s with pending := rest } :=
  ⟨h.noFault, h.faultCode, h.bits, h.palette, h.indexWidth, h.quiet, h.openFrame, h.openPayload,
    h.openPacket⟩

/-! ## Operations that keep the invariant -/

/-- Where the operation answers a next state, it keeps the invariant. -/
def KeepsInv (op : State → Out) : Prop := ∀ ⦃s t : State⦄, Inv s → op s = .next t → Inv t

/-- The template: only the operation's own body is left to look at, in its own mode. -/
theorem keepsInv_inMode {m : Mode} {w : Word} {body : State → Out} (hm : m ≠ .fault)
    (hbody : ∀ s t : State, s.mode = m → Inv s → body s = .next t → Inv t) :
    KeepsInv (inMode m w body) := by
  intro s t hs ht
  obtain ⟨-, he⟩ | ⟨-, -, he⟩ | ⟨hown, he⟩ := inMode_cases m w body s hm
  · cases he.symm.trans ht
    exact hs
  · cases he.symm.trans ht
    exact inv_raise hs _ _
  · exact hbody s t hown hs (he.symm.trans ht)

theorem KeepsInv.andThen {f g : State → Out} (hf : KeepsInv f) (hg : KeepsInv g) :
    KeepsInv fun s => Machine.andThen (f s) g := by
  intro s t hs ht
  obtain ⟨u, hu, hut⟩ := andThen_eq_next.mp ht
  exact hg (hf hs hu) hut

theorem KeepsInv.feed {α : Type} {op : α → State → Out} (h : ∀ x, KeepsInv (op x)) (xs : List α) :
    KeepsInv (Machine.feed op xs) := by
  induction xs with
  | nil =>
    intro s t hs ht
    cases ht
    exact hs
  | cons x xs ih => exact (h x).andThen ih

/-! ## The Bit-Packer (40_packer.md R110 to R112) -/

theorem inv_openPack {v : Variant} {k w : Nat} {s : State} (hs : Inv s) (hm : s.mode = .idle)
    (hk : 1 ≤ k) (hk' : k ≤ Config.maxPal v) (hw : w = paletteBits k) :
    Inv (openPack v k w s) := by
  have hmax := maxPal_le v
  have hbits := paletteBits_bounds hk (hk'.trans hmax)
  have hpsize : (openPack v k w s).psize.toNat = k := by
    simp only [openPack, BitVec.toNat_ofNat]; omega
  have hwidth : (openPack v k w s).width.toNat = w := by
    simp only [openPack, BitVec.toNat_ofNat]; omega
  refine inv_of_pack rfl (hs.noFault (by simp [hm])) (by simp [openPack]) ?_ ?_
  · rw [hpsize]
    exact ⟨hk, hk'⟩
  · rw [hpsize, hwidth, hw]

theorem execPkCfg_keepsInv (v : Variant) (k : Half) : KeepsInv (execPkCfg v k) := by
  refine keepsInv_inMode (by decide) fun s t hm hs ht => ?_
  cases hw : paletteWidth v k with
  | fault f =>
    simp only [hw] at ht
    cases ht
    exact inv_raise hs _ _
  | ok w =>
    simp only [hw] at ht
    cases ht
    obtain ⟨hk, hk', hbits⟩ := widthOf_eq_ok hw
    exact inv_openPack hs hm hk hk' hbits

/-- An index in range fits in `WIDTH` bits. -/
theorem index_lt_two_pow_width {i : Nat} {s : State} (hs : Inv s) (hm : s.mode = .pack)
    (hi : i < s.psize.toNat) : i < 2 ^ s.width.toNat := by
  obtain ⟨-, -, hw⟩ := hs.indexWidth hm
  have hle : s.psize.toNat ≤ 2 ^ s.width.toNat := hw ▸ le_two_pow_paletteBits s.psize.toNat
  omega

/-- A whole byte leaves the accumulator, a partial one stays: either way `NBITS <= 7` and
`ACC < 2^NBITS` come back. -/
theorem inv_of_pushIndex {i : Nat} {s t : State} (hs : Inv s) (hm : s.mode = .pack)
    (hi : i < s.psize.toNat) (ht : pushIndex i s = .next t) : Inv t := by
  obtain ⟨hn, ha⟩ := hs.bits
  obtain ⟨-, hw, hwidth⟩ := hs.indexWidth hm
  have hnf := hs.noFault (by simp [hm])
  have hpal := hs.palette hm
  obtain ⟨hor, hlt, hlt15⟩ := pushIndex_value i s hn ha hw (index_lt_two_pow_width hs hm hi)
  rw [← hor] at hlt
  obtain ⟨-, he⟩ | ⟨hacc, h8, h16, he⟩ | ⟨hacc, h8, he⟩ := pushIndex_cases i s
  · cases he.symm.trans ht
  · cases he.symm.trans ht
    have hshift : (s.acc.toNat ||| i <<< s.nbits.toNat) >>> 8 <
        2 ^ (s.nbits.toNat + s.width.toNat - 8) := by
      rw [Nat.shiftRight_eq_div_pow, Nat.div_lt_iff_lt_mul (by decide), ← Nat.pow_add]
      rwa [Nat.sub_add_cancel h8]
    refine inv_of_pack hm hnf ?_ hpal hwidth
    simp only [BitVec.toNat_ofNat]
    rw [Nat.mod_eq_of_lt (a := s.nbits.toNat + s.width.toNat - 8) (by omega)]
    exact ⟨by omega, (Nat.mod_le _ _).trans_lt hshift⟩
  · cases he.symm.trans ht
    refine inv_of_pack hm hnf ?_ hpal hwidth
    simp only [BitVec.toNat_ofNat]
    rw [Nat.mod_eq_of_lt (a := s.nbits.toNat + s.width.toNat) (by omega)]
    exact ⟨by omega, (Nat.mod_le _ _).trans_lt hlt⟩

theorem indexOutOfRange_iff (i : Half) (s : State) :
    indexOutOfRange i s = true ↔ s.psize.toNat ≤ i.toNat := by
  simp [indexOutOfRange]

theorem execPkPush_keepsInv (i : Half) : KeepsInv (execPkPush i) := by
  refine keepsInv_inMode (by decide) fun s t hm hs ht => ?_
  split at ht
  · cases ht
    exact inv_raise hs _ _
  · next hin => exact inv_of_pushIndex hs hm (by rw [indexOutOfRange_iff] at hin; omega) ht

/-- The tail goes out on `PKO` and changes no register. -/
theorem emitTail_fault_registers (s : State) :
    (emitTail s).fcause = s.fcause ∧ (emitTail s).fword = s.fword := by
  unfold emitTail
  split <;> exact ⟨rfl, rfl⟩

theorem execPkEnd_keepsInv : KeepsInv execPkEnd := by
  refine keepsInv_inMode (by decide) fun s t hm hs ht => ?_
  cases ht
  obtain ⟨hfcause, hfword⟩ := emitTail_fault_registers s
  obtain ⟨hc, hw⟩ := hs.noFault (by simp [hm])
  exact inv_of_idle rfl ⟨hfcause.trans hc, hfword.trans hw⟩ ⟨rfl, rfl⟩

/-! ## The Command Framer (41_framer.md R137, R138) -/

theorem frameTooLarge_iff (n : Half) : frameTooLarge n = true ↔ 65532 < n.toNat := by
  simp only [frameTooLarge, Config.lenMax, Config.lenOverhead, Nat.blt_eq]
  omega

theorem execFrBegin_keepsInv (c : Byte) (n : Half) : KeepsInv (execFrBegin c n) := by
  refine keepsInv_inMode (by decide) fun s t hm hs ht => ?_
  have hnf := hs.noFault (by simp [hm])
  have hquiet := hs.quiet (.inl hm)
  split at ht
  · cases ht
    exact inv_raise hs _ _
  · next hfits =>
    rw [frameTooLarge_iff, not_lt] at hfits
    rw [frameOpen_eq c _ s hfits] at ht
    cases ht
    by_cases h0 : n = 0
    · exact inv_of_idle (if_pos h0) hnf hquiet
    · have hpos : n.toNat ≠ 0 := fun h => h0 (BitVec.eq_of_toNat_eq h)
      refine inv_of_frame (if_neg h0) hnf hquiet ?_
      rw [ofNat16_toNat (by omega)]
      omega

theorem execFrData_keepsInv (b : Byte) : KeepsInv (execFrData b) := by
  refine keepsInv_inMode (by decide) fun s t hm hs ht => ?_
  have hnf := hs.noFault (by simp [hm])
  have hquiet := hs.quiet (.inr (.inl hm))
  obtain ⟨hfrem, hfrem'⟩ := hs.openFrame hm
  rw [takeArgument_eq b s hfrem] at ht
  cases ht
  by_cases h1 : s.frem.toNat = 1
  · exact inv_of_idle (by simp [h1]) hnf hquiet
  · refine inv_of_frame (by simp [h1, hm]) hnf hquiet ?_
    rw [ofNat16_toNat (by omega)]
    omega

/-! ## The Chunker (42_chunker.md R158, R159) -/

theorem packetCounts_first {size : Nat} (hpos : 1 ≤ size) (hle : size ≤ 51200) :
    PacketCounts size size 0 (min 200 size) := by
  constructor <;> omega

section Counts

variable {total rem index frem : Nat}

/-- A byte inside the open packet. -/
theorem PacketCounts.inside (h : PacketCounts total rem index frem) (hfrem : 2 ≤ frem) :
    PacketCounts total (rem - 1) index (frem - 1) := by
  obtain ⟨hrem, hle, htotal, -, hfrem', hindex, hmissing⟩ := h
  constructor <;> omega

/-- A packet's last byte with more of the payload to come: the packet was a full one, and the next is
opened with as many bytes as are left, 200 at most. -/
theorem PacketCounts.next (h : PacketCounts total rem index 1) (hrem : 2 ≤ rem) :
    PacketCounts total (rem - 1) (index + 1) (min 200 (rem - 1)) := by
  obtain ⟨-, hle, htotal, -, -, hindex, hmissing⟩ := h
  constructor <;> omega

end Counts

theorem payloadTooLarge_iff (size : Half) : payloadTooLarge size = true ↔ 51200 < size.toNat := by
  simp only [payloadTooLarge, Config.payloadMax, Config.chunkMax, Config.cidxMax, Nat.blt_eq]

theorem inv_openChunks {size : Half} {s : State} (hs : Inv s) (hm : s.mode = .idle)
    (hpos : 1 ≤ size.toNat) (hle : size.toNat ≤ 51200) : Inv (openChunks size s) := by
  rw [openChunks, chunkOpen_eq _ hpos]
  refine inv_of_chunk rfl (hs.noFault (by simp [hm])) (hs.quiet (.inl hm)) ?_
  simp only
  rw [ofNat16_toNat (by omega)]
  exact packetCounts_first hpos hle

theorem execChBegin_keepsInv (size : Half) : KeepsInv (execChBegin size) := by
  refine keepsInv_inMode (by decide) fun s t hm hs ht => ?_
  split at ht
  · cases ht
    exact inv_raise hs _ _
  · next hfits =>
    rw [payloadTooLarge_iff, not_lt] at hfits
    split at ht
    · cases ht
      exact hs
    · next h0 =>
      cases ht
      have hne : size.toNat ≠ 0 := fun h => h0 (BitVec.eq_of_toNat_eq h)
      exact inv_openChunks hs hm (by omega) hfits

theorem execChData_keepsInv (b : Byte) : KeepsInv (execChData b) := by
  refine keepsInv_inMode (by decide) fun s t hm hs ht => ?_
  have hnf := hs.noFault (by simp [hm])
  have hquiet := hs.quiet (.inr (.inr hm))
  have hcounts := packetCounts_of_inv hs hm
  have hrem16 : (BitVec.ofNat 16 (s.crem.toNat - 1)).toNat = s.crem.toNat - 1 :=
    ofNat16_toNat (by omega)
  obtain ⟨hfrem, he⟩ | ⟨-, -, he⟩ | ⟨-, -, -, he⟩ | ⟨hfrem, hrem, hidx, he⟩ :=
    takePayloadByte_cases b s hcounts.fremPos hcounts.remPos
  case inl =>
    cases he.symm.trans ht
    refine inv_of_chunk hm hnf hquiet ?_
    simp only
    rw [hrem16, ofNat16_toNat (by omega)]
    exact hcounts.inside hfrem
  case inr.inl =>
    cases he.symm.trans ht
    exact inv_of_idle rfl hnf hquiet
  case inr.inr.inl => cases he.symm.trans ht
  case inr.inr.inr =>
    have hnext := (hfrem ▸ hcounts).next hrem
    rw [chunkOpen_eq _ (by simpa only [hrem16] using hnext.remPos)] at he
    cases he.symm.trans ht
    refine inv_of_chunk hm hnf hquiet ?_
    have hidx8 : (BitVec.ofNat 8 (s.cidx.toNat + 1)).toNat = s.cidx.toNat + 1 := by
      simp only [BitVec.toNat_ofNat]; omega
    simp only [hrem16, hidx8]
    rw [ofNat16_toNat (by omega)]
    exact hnext

/-! ## Every instruction, and the step -/

theorem execIllegal_keepsInv (w : Word) : KeepsInv (execIllegal w) := by
  intro s t hs ht
  unfold execIllegal at ht
  split at ht
  · cases ht
    exact hs
  · cases ht
    exact inv_raise hs _ _

/-- A list that its count cannot say is refused; any other is the run of its operations. -/
theorem sendFrame_keepsInv (c : Byte) (args : List Byte) : KeepsInv (sendFrame c args) := by
  intro s t hs ht
  unfold sendFrame at ht
  split at ht
  · cases ht
  · exact (execFrBegin_keepsInv c _).andThen (.feed execFrData_keepsInv args) hs ht

theorem execAnim_keepsInv (payload : List Byte) : KeepsInv (execAnim payload) := by
  intro s t hs ht
  unfold execAnim at ht
  split at ht
  · cases ht
  · exact (execChBegin_keepsInv _).andThen (.feed execChData_keepsInv payload) hs ht

/-- Every row of the opcode table keeps the invariant. -/
theorem exec_keepsInv (i : Instr) : KeepsInv (exec i) := by
  cases i with
  | pkCfg v k => exact execPkCfg_keepsInv v k
  | pkPush i => exact execPkPush_keepsInv i
  | pkEnd => exact execPkEnd_keepsInv
  | frBegin c n => exact execFrBegin_keepsInv c n
  | frData b => exact execFrData_keepsInv b
  | chBegin size => exact execChBegin_keepsInv size
  | chData b => exact execChData_keepsInv b
  | illegal w => exact execIllegal_keepsInv w
  | wireFrame c args => exact sendFrame_keepsInv c args
  | wirePacket size index slice => exact sendFrame_keepsInv _ (packetArgs size index slice)
  | setBrightness level => exact sendFrame_keepsInv _ [level]
  | setBoxMode mode visual submode => exact sendFrame_keepsInv _ [mode, visual, submode]
  | setRgb r g b => exact sendFrame_keepsInv _ [r, g, b]
  | drawPicture subFrame => exact sendFrame_keepsInv _ (Config.picLead ++ subFrame)
  | anim payload => exact execAnim_keepsInv payload

theorem step_of_no_input {s : State} (h : s.pending = []) : step s = .next s := by
  rw [step, takeInput_nil h]

theorem step_of_reset {s : State} {rest : List Input} (h : s.pending = .reset :: rest) :
    step s = .next (resetRegisters { s with pending := rest }) := by
  rw [step, takeInput_cons h]

theorem step_of_word {s : State} {w : Word} {rest : List Input} (h : s.pending = .word w :: rest) :
    step s = exec (decode w) { s with pending := rest } := by
  rw [step, takeInput_cons h]

theorem step_keepsInv : KeepsInv step := by
  intro s t hs ht
  match hp : s.pending with
  | [] =>
    cases (step_of_no_input hp).symm.trans ht
    exact hs
  | .reset :: rest =>
    cases (step_of_reset hp).symm.trans ht
    exact inv_resetRegisters _
  | .word w :: rest =>
    exact exec_keepsInv (decode w) (inv_withPending hs rest) ((step_of_word hp).symm.trans ht)

/-! ## The statements -/

/-- Settles O54: the reset state meets the invariant, and the step keeps it whatever event it takes. -/
theorem stepKeepsInvariant : Obligations.StepKeepsInvariant :=
  ⟨inv_reset, fun _ _ hs ht => step_keepsInv hs ht⟩

/-- Settles O1: the registers of the reset state are read off one by one. -/
theorem resetTupleMeetsInvariant : Obligations.ResetTupleMeetsInvariant :=
  ⟨rfl, rfl, inv_reset⟩

end Sys2Proof.Proofs

/-! PROOF. The opcode table of 30_encoding.md R72: its rows are disjoint because each fixes the field
`OP` and no two fix it alike, and a word that matches a row is the row's header with its operands. -/

namespace Sys2Proof.Proofs

open Sys2Proof

/-! ## Fields that a masked comparison fixes -/

/-- Where the mask is all ones, a masked comparison fixes the whole field. -/
theorem field_of_masked {n start len : Nat} {w mask pattern : BitVec n} (h : w &&& mask = pattern)
    (hmask : mask.extractLsb' start len = BitVec.allOnes len) :
    w.extractLsb' start len = pattern.extractLsb' start len := by
  rw [← h, BitVec.extractLsb'_and, hmask, BitVec.and_allOnes]

theorem header_append_operand {hi lo : Nat} {w mask pattern : BitVec (hi + lo)} {header : BitVec hi}
    (h : w &&& mask = pattern) (hmask : mask.extractLsb' lo hi = BitVec.allOnes hi)
    (hheader : pattern.extractLsb' lo hi = header) :
    header ++ w.extractLsb' 0 lo = w := by
  rw [← hheader, ← field_of_masked h hmask, BitVec.extractLsb'_append_extractLsb']

theorem header_append_operands {hi mid lo : Nat} {w mask pattern : BitVec (hi + mid + lo)}
    {header : BitVec hi} (h : w &&& mask = pattern)
    (hmask : mask.extractLsb' (lo + mid) hi = BitVec.allOnes hi)
    (hheader : pattern.extractLsb' (lo + mid) hi = header) :
    header ++ w.extractLsb' lo mid ++ w.extractLsb' 0 lo = w := by
  rw [← hheader, ← field_of_masked h hmask, BitVec.extractLsb'_append_extractLsb'_eq_extractLsb' rfl,
    BitVec.extractLsb'_append_extractLsb']

/-! ## The word of each row, from the operands that stand in it (30_encoding.md R71) -/

theorem variantBit_variantField (w : Word) :
    Machine.variantBit (variantField w) = w.extractLsb' 16 1 := by
  rw [variantField, BitVec.getLsbD_eq_extractLsb']
  generalize w.extractLsb' 16 1 = b
  revert b
  decide

theorem wordPkCfg_fields {w : Word} (h : w &&& 0xFFFE0000 = 0x10000000) :
    wordPkCfg (variantField w) (bField w) = w := by
  rw [wordPkCfg, variantBit_variantField]
  exact header_append_operands (hi := 15) (mid := 1) (lo := 16) h (by decide) (by decide)

theorem wordPkPush_fields {w : Word} (h : w &&& 0xFFFF0000 = 0x20000000) :
    wordPkPush (bField w) = w :=
  header_append_operand (hi := 16) (lo := 16) h (by decide) (by decide)

theorem wordPkEnd_fields {w : Word} (h : w &&& 0xFFFFFFFF = 0x30000000) : wordPkEnd = w :=
  h.symm.trans (BitVec.and_allOnes (x := w))

theorem wordFrBegin_fields {w : Word} (h : w &&& 0xFF000000 = 0x40000000) :
    wordFrBegin (aField w) (bField w) = w :=
  header_append_operands (hi := 8) (mid := 8) (lo := 16) h (by decide) (by decide)

theorem wordFrData_fields {w : Word} (h : w &&& 0xFFFFFF00 = 0x50000000) :
    wordFrData (byteField w) = w :=
  header_append_operand (hi := 24) (lo := 8) h (by decide) (by decide)

theorem wordChBegin_fields {w : Word} (h : w &&& 0xFFFF0000 = 0x60000000) :
    wordChBegin (bField w) = w :=
  header_append_operand (hi := 16) (lo := 16) h (by decide) (by decide)

theorem wordChData_fields {w : Word} (h : w &&& 0xFFFFFF00 = 0x70000000) :
    wordChData (byteField w) = w :=
  header_append_operand (hi := 24) (lo := 8) h (by decide) (by decide)

/-! ## The rows are disjoint (30_encoding.md R73) -/

theorem opField_mask_of_mem : ∀ row ∈ opcodeRows, opField row.2.1 = BitVec.allOnes 4 := by decide

theorem row_eq_of_opField_eq :
    ∀ row ∈ opcodeRows, ∀ row' ∈ opcodeRows,
      opField row.2.2 = opField row'.2.2 → row = row' := by
  decide

theorem opField_of_matchesRow {w : Word} {row : String × Word × Word} (hrow : row ∈ opcodeRows)
    (h : matchesRow w row = true) : opField w = opField row.2.2 :=
  field_of_masked ((Laws.matchesRow_iff w row).mp h) (opField_mask_of_mem row hrow)

theorem matchesRow_unique {w : Word} {row row' : String × Word × Word} (hrow : row ∈ opcodeRows)
    (h : matchesRow w row = true) (hrow' : row' ∈ opcodeRows) (h' : matchesRow w row' = true) :
    row' = row :=
  row_eq_of_opField_eq row' hrow' row hrow
    ((opField_of_matchesRow hrow' h').symm.trans (opField_of_matchesRow hrow h))

theorem filter_matchesRow_eq_singleton {w : Word} {row : String × Word × Word}
    (hrow : row ∈ opcodeRows) (h : matchesRow w row = true) :
    opcodeRows.filter (matchesRow w) = [row] := by
  have hnodup : opcodeRows.Nodup := by decide
  have hmem (row' : String × Word × Word) :
      row' ∈ opcodeRows.filter (matchesRow w) ↔ row' ∈ [row] := by
    rw [List.mem_filter, List.mem_singleton]
    constructor
    · rintro ⟨hrow', h'⟩
      exact matchesRow_unique hrow h hrow' h'
    · rintro rfl
      exact ⟨hrow, h⟩
  exact ((List.perm_ext_iff_of_nodup (hnodup.filter _) (List.nodup_singleton row)).mpr
    hmem).eq_singleton

/-! ## What decoding answers -/

/-- The word matches the row, and the instruction is the row's operation with the operands whose
encoding the word is (30_encoding.md R73). -/
structure IsRowOperation (w : Word) (row : String × Word × Word) (i : Instr) : Prop where
  mem : row ∈ opcodeRows
  masked : w &&& row.2.1 = row.2.2
  mnemonic : i.mnemonic = row.1
  legal : i ≠ .illegal w
  encoded : encode i = [w]

/-- The branches of `decode` are the rows of the table in their order, and its last branch is left to
the words that match none. -/
theorem decode_isRowOperation_or_no_row (w : Word) :
    (∃ row, IsRowOperation w row (decode w)) ∨ opcodeRows.filter (matchesRow w) = [] := by
  unfold decode
  split_ifs with hPkCfg hPkPush hPkEnd hFrBegin hFrData hChBegin hChData
  · exact .inl ⟨opcodeRows[0], by decide, hPkCfg, rfl, nofun,
      congrArg ([·]) (wordPkCfg_fields hPkCfg)⟩
  · exact .inl ⟨opcodeRows[1], by decide, hPkPush, rfl, nofun,
      congrArg ([·]) (wordPkPush_fields hPkPush)⟩
  · exact .inl ⟨opcodeRows[2], by decide, hPkEnd, rfl, nofun,
      congrArg ([·]) (wordPkEnd_fields hPkEnd)⟩
  · exact .inl ⟨opcodeRows[3], by decide, hFrBegin, rfl, nofun,
      congrArg ([·]) (wordFrBegin_fields hFrBegin)⟩
  · exact .inl ⟨opcodeRows[4], by decide, hFrData, rfl, nofun,
      congrArg ([·]) (wordFrData_fields hFrData)⟩
  · exact .inl ⟨opcodeRows[5], by decide, hChBegin, rfl, nofun,
      congrArg ([·]) (wordChBegin_fields hChBegin)⟩
  · exact .inl ⟨opcodeRows[6], by decide, hChData, rfl, nofun,
      congrArg ([·]) (wordChData_fields hChData)⟩
  · refine .inr (List.filter_eq_nil_iff.mpr ?_)
    simp only [opcodeRows, List.forall_mem_cons, Laws.matchesRow_iff]
    exact ⟨hPkCfg, hPkPush, hPkEnd, hFrBegin, hFrData, hChBegin, hChData, by simp⟩

/-- Settles O7: the row `decode` goes by is the only one that matches, and a word without a row is
illegal. -/
theorem decodeFollowsOpcodeRows : Obligations.DecodeFollowsOpcodeRows := by
  intro w
  rcases decode_isRowOperation_or_no_row w with ⟨row, hrow⟩ | hnone
  · refine .inl ⟨?_, hrow.legal, hrow.encoded⟩
    rw [filter_matchesRow_eq_singleton hrow.mem ((Laws.matchesRow_iff w row).mpr hrow.masked),
      List.map_singleton, hrow.mnemonic]
  · exact .inr ⟨hnone, Laws.decode_of_no_row hnone⟩

end Sys2Proof.Proofs

/-! PROOF. Runs of offered words: one step a word does what the decoded operations do one after the
other, and a fault is followed by nothing. -/

namespace Sys2Proof.Proofs

open Sys2Proof Sys2Proof.Machine

/-! ## The operations a command word can be -/

/-- A word decodes to one of the seven operations or is illegal; no word is a pseudo-operation
(30_encoding.md R72, R75). -/
theorem decode_induction {motive : Instr → Prop} (w : Word)
    (pkCfg : ∀ v k, motive (.pkCfg v k)) (pkPush : ∀ i, motive (.pkPush i)) (pkEnd : motive .pkEnd)
    (frBegin : ∀ c n, motive (.frBegin c n)) (frData : ∀ b, motive (.frData b))
    (chBegin : ∀ size, motive (.chBegin size)) (chData : ∀ b, motive (.chData b))
    (illegal : ∀ w, motive (.illegal w)) : motive (decode w) := by
  unfold decode
  split_ifs
  · exact pkCfg _ _
  · exact pkPush _
  · exact pkEnd
  · exact frBegin _ _
  · exact frData _
  · exact chBegin _
  · exact chData _
  · exact illegal _

/-! ## An operation does not look at the host's events -/

/-- The same state with other events still to come. -/
def withPending (rest : List Input) (s : State) : State := { s with pending := rest }

/-- The update neither reads the events still to come nor changes them. -/
def PassesPending (f : State → State) : Prop :=
  ∀ (rest : List Input) (s : State), f (withPending rest s) = withPending rest (f s)

/-- The operation neither reads the events still to come nor changes them (10_state.md R39). -/
def IgnoresPending (op : State → Out) : Prop :=
  ∀ (rest : List Input) (s : State),
    op (withPending rest s) = andThen (op s) fun t => .next (withPending rest t)

section Combinators

variable {f g : State → State} {op op' : State → Out}

theorem PassesPending.comp (hg : PassesPending g) (hf : PassesPending f) :
    PassesPending fun s => g (f s) :=
  fun rest s => (congrArg g (hf rest s)).trans (hg rest (f s))

/-- A branch on a condition that does not look at the events either. -/
theorem PassesPending.ite {c : State → Prop} [DecidablePred c] (hf : PassesPending f)
    (hg : PassesPending g) (hc : ∀ rest s, c (withPending rest s) ↔ c s) :
    PassesPending fun s => if c s then f s else g s := by
  intro rest s
  simp only [hc]
  split_ifs
  · exact hf rest s
  · exact hg rest s

theorem IgnoresPending.next (hf : PassesPending f) : IgnoresPending fun s => .next (f s) :=
  fun rest s => congrArg _ (hf rest s)

theorem IgnoresPending.fault (r : Fault) : IgnoresPending fun _ => .fault r := fun _ _ => rfl

theorem IgnoresPending.comp (hop : IgnoresPending op) (hf : PassesPending f) :
    IgnoresPending fun s => op (f s) :=
  fun rest s => (congrArg op (hf rest s)).trans (hop rest (f s))

/-- The same for operations. -/
theorem IgnoresPending.ite {c : State → Prop} [DecidablePred c] (hop : IgnoresPending op)
    (hop' : IgnoresPending op') (hc : ∀ rest s, c (withPending rest s) ↔ c s) :
    IgnoresPending fun s => if c s then op s else op' s := by
  intro rest s
  simp only [hc]
  split_ifs
  · exact hop rest s
  · exact hop' rest s

theorem IgnoresPending.inMode {m : Mode} {w : Word} (hop : IgnoresPending op) :
    IgnoresPending (inMode m w op) :=
  .ite (.next fun _ _ => rfl) (.ite hop (.next fun _ _ => rfl) fun _ _ => .rfl) fun _ _ => .rfl

end Combinators

theorem emitTail_passesPending : PassesPending emitTail :=
  .ite (fun _ _ => rfl) (fun _ _ => rfl) fun _ _ => .rfl

theorem frameOpen_passesPending (c : Byte) (n : Nat) : PassesPending (frameOpen c n) :=
  .ite (fun _ _ => rfl) (fun _ _ => rfl) fun _ _ => .rfl

theorem frameByte_passesPending (b : Byte) : PassesPending (frameByte b) :=
  .ite (fun _ _ => rfl) (fun _ _ => rfl) fun _ _ => .rfl

theorem chunkOpen_passesPending : PassesPending chunkOpen := by
  intro rest s
  unfold chunkOpen
  rw [← frameByte_passesPending, ← frameByte_passesPending, ← frameByte_passesPending,
    ← frameOpen_passesPending]
  rfl

theorem setMode_passesPending (m : Mode) : PassesPending fun s => { s with mode := m } :=
  fun _ _ => rfl

theorem pushIndex_ignoresPending (i : Nat) : IgnoresPending (pushIndex i) :=
  .ite (.fault _) (.ite (.next fun _ _ => rfl) (.next fun _ _ => rfl) fun _ _ => .rfl)
    fun _ _ => .rfl

theorem execPkCfg_ignoresPending (v : Variant) (k : Half) : IgnoresPending (execPkCfg v k) := by
  refine .inMode ?_
  cases paletteWidth v k with
  | fault f => exact .next fun _ _ => rfl
  | ok w => exact .next fun _ _ => rfl

theorem execPkPush_ignoresPending (i : Half) : IgnoresPending (execPkPush i) :=
  .inMode (.ite (.next fun _ _ => rfl) (pushIndex_ignoresPending _) fun _ _ => .rfl)

theorem execPkEnd_ignoresPending : IgnoresPending execPkEnd :=
  .inMode (.next (.comp (g := fun s => { s with acc := 0, nbits := 0, mode := .idle })
    (fun _ _ => rfl) emitTail_passesPending))

theorem execFrBegin_ignoresPending (c : Byte) (n : Half) : IgnoresPending (execFrBegin c n) :=
  .inMode (.ite (.next fun _ _ => rfl)
    (.next (.comp (setMode_passesPending _) (frameOpen_passesPending c n.toNat))) fun _ _ => .rfl)

theorem takeArgument_ignoresPending (b : Byte) : IgnoresPending (takeArgument b) := by
  have hbyte := frameByte_passesPending b
  refine .ite (.fault _)
    (.ite (.next (.comp (setMode_passesPending _) hbyte)) (.next hbyte) fun rest s => ?_)
    fun _ _ => .rfl
  rw [hbyte]
  rfl

theorem execFrData_ignoresPending (b : Byte) : IgnoresPending (execFrData b) :=
  .inMode (takeArgument_ignoresPending b)

theorem openChunks_passesPending (size : Half) : PassesPending (openChunks size) := by
  have hopen : PassesPending fun s =>
      chunkOpen { s with ctotal := size, crem := size, cidx := 0 } :=
    .comp chunkOpen_passesPending fun _ _ => rfl
  exact ((setMode_passesPending .chunk).comp hopen :)

theorem execChBegin_ignoresPending (size : Half) : IgnoresPending (execChBegin size) :=
  .inMode (.ite (.next fun _ _ => rfl)
    (.ite (.next fun _ _ => rfl) (.next (openChunks_passesPending size)) fun _ _ => .rfl)
    fun _ _ => .rfl)

theorem afterPayloadByte_ignoresPending : IgnoresPending afterPayloadByte :=
  .ite
    (.ite (.next (setMode_passesPending _))
      (.ite (.fault _) (.next (.comp chunkOpen_passesPending fun _ _ => rfl)) fun _ _ => .rfl)
      fun _ _ => .rfl)
    (.next fun _ _ => rfl) fun _ _ => .rfl

theorem takePayloadByte_ignoresPending (b : Byte) : IgnoresPending (takePayloadByte b) := by
  refine .ite (.fault _) (.comp afterPayloadByte_ignoresPending fun rest s => ?_) fun _ _ => .rfl
  rw [frameByte_passesPending]
  rfl

theorem execChData_ignoresPending (b : Byte) : IgnoresPending (execChData b) :=
  .inMode (takePayloadByte_ignoresPending b)

theorem execIllegal_ignoresPending (w : Word) : IgnoresPending (execIllegal w) :=
  .ite (.next fun _ _ => rfl) (.next fun _ _ => rfl) fun _ _ => .rfl

theorem exec_decode_ignoresPending (w : Word) : IgnoresPending (exec (decode w)) :=
  decode_induction (motive := fun i => IgnoresPending (exec i)) w execPkCfg_ignoresPending
    execPkPush_ignoresPending execPkEnd_ignoresPending execFrBegin_ignoresPending
    execFrData_ignoresPending execChBegin_ignoresPending execChData_ignoresPending
    execIllegal_ignoresPending

/-! ## One step a word -/

theorem run_succ (n : Nat) (s : State) :
    Sys2Proof.core.run (n + 1) s = andThen (step s) (Sys2Proof.core.run n) := by
  have hrun := Host.Core.run.eq_2 Sys2Proof.core s n
  rw [hrun]
  change _ = andThen (Sys2Proof.core.step s) _
  cases Sys2Proof.core.step s <;> rfl

/-- The words offered next, one a step, are the operations they decode to, one after the other. -/
theorem run_words {ws : List Word} {s : State} {rest : List Input}
    (h : s.pending = ws.map .word ++ rest) :
    Sys2Proof.core.run ws.length s =
      feed (fun w => exec (decode w)) ws (withPending rest s) := by
  induction ws generalizing s with
  | nil =>
    subst h
    rfl
  | cons w ws ih =>
    have hstep : step s = exec (decode w) (withPending (ws.map .word ++ rest) s) := step_of_word h
    rw [List.length_cons, run_succ, hstep, feed_cons, exec_decode_ignoresPending,
      exec_decode_ignoresPending]
    cases exec (decode w) s with
    | next t => exact ih rfl
    | fault r => rfl
    | refused r => rfl

theorem feed_map {α β : Type} (op : β → State → Out) (f : α → β) (xs : List α) (s : State) :
    feed op (xs.map f) s = feed (fun x => op (f x)) xs s := by
  induction xs generalizing s with
  | nil => rfl
  | cons x xs ih => simp only [List.map_cons, feed_cons, funext ih]

/-! ## After a fault (60_exceptions.md R219) -/

theorem feed_of_fault {α : Type} {op : α → State → Out}
    (h : ∀ x s, s.mode = .fault → op x s = .next s) (xs : List α) {s : State}
    (hs : s.mode = .fault) : feed op xs s = .next s := by
  induction xs with
  | nil => rfl
  | cons x xs ih => rw [feed_cons, h x s hs, andThen_next, ih]

end Sys2Proof.Proofs

/-! PROOF. The packing transaction: the packer's registers are at every moment those of the bit
string of the indices so far (40_packer.md R118), which `packState` says and each operation keeps. -/

namespace Sys2Proof.Proofs

open Sys2Proof Sys2Proof.Machine

/-! ## The packer's words (30_encoding.md R71, R72) -/

theorem append_masked {hi lo : Nat} (header mask : BitVec hi) (operand : BitVec lo) :
    (header ++ operand) &&& (mask ++ 0#lo) = (header &&& mask) ++ 0#lo := by
  rw [BitVec.and_append, BitVec.and_zero]

theorem decode_wordPkCfg (v : Variant) (k : Half) : decode (wordPkCfg v k) = .pkCfg v k := by
  have hrow : wordPkCfg v k &&& 0xFFFE0000 = 0x10000000 :=
    (append_masked (0x1#4 ++ 0#11 ++ variantBit v) 0xFFFE#16 k).trans (by cases v <;> rfl)
  have hv : variantField (wordPkCfg v k) = v := by
    rw [variantField, wordPkCfg, BitVec.getLsbD_append]
    cases v <;> rfl
  have hk : bField (wordPkCfg v k) = k := BitVec.extractLsb'_append_eq_right
  rw [decode, if_pos hrow, hv, hk]

theorem decode_wordPkPush (i : Half) : decode (wordPkPush i) = .pkPush i := by
  have hother : wordPkPush i &&& 0xFFFE0000 = 0x20000000 := append_masked 0x2000#16 0xFFFE#16 i
  have hrow : wordPkPush i &&& 0xFFFF0000 = 0x20000000 := append_masked 0x2000#16 0xFFFF#16 i
  have hi : bField (wordPkPush i) = i := BitVec.extractLsb'_append_eq_right
  rw [decode, if_neg (by rw [hother]; decide), if_pos hrow, hi]

theorem decode_wordPkEnd : decode wordPkEnd = .pkEnd := by decide

theorem map_decode_encodePack (v : Variant) (k : Half) (idx : List Half) :
    (encodePack v k idx).map decode = expandPack v k idx := by
  have hpush : decode ∘ wordPkPush = .pkPush := funext decode_wordPkPush
  simp only [encodePack, expandPack, List.map_append, List.map_cons, List.map_nil, List.map_map,
    decode_wordPkCfg, hpush, decode_wordPkEnd]

/-! ## Bit strings: the whole bytes and the bits left over -/

/-- Of `t` bits, `t % 8` are left over after the whole bytes. -/
theorem leftover_lt {t b : Nat} (hb : b < 2 ^ t) : b / 2 ^ (8 * (t / 8)) < 2 ^ (t % 8) := by
  rwa [Nat.div_lt_iff_lt_mul (by positivity), ← Nat.pow_add, Nat.mod_add_div]

/-- What stands above the first `t` bits stands above those left over. -/
theorem leftover_add (t b x : Nat) :
    (b + 2 ^ t * x) / 2 ^ (8 * (t / 8)) = b / 2 ^ (8 * (t / 8)) + x * 2 ^ (t % 8) := by
  have ht : 2 ^ t * x = x * 2 ^ (t % 8) * 2 ^ (8 * (t / 8)) := by
    rw [Nat.mul_assoc, ← Nat.pow_add, Nat.mod_add_div, Nat.mul_comm]
  rw [ht, Nat.add_mul_div_right _ _ (by positivity)]

/-- What stands above the first `t` bits is in none of their whole bytes. -/
theorem wholeBytes_add (t b x : Nat) : wholeBytes t (b + 2 ^ t * x) = wholeBytes t b := by
  refine List.map_congr_left fun m hm => ?_
  have hm' : m < t / 8 := List.mem_range.mp hm
  have ht : 2 ^ t * x = 256 * (2 ^ (t - 8 - 8 * m) * x) * 2 ^ (8 * m) := by
    have hpow : 2 ^ t = 2 ^ 8 * 2 ^ (t - 8 - 8 * m) * 2 ^ (8 * m) := by
      rw [← Nat.pow_add, ← Nat.pow_add]
      congr 1
      omega
    rw [hpow]
    ring
  apply BitVec.eq_of_toNat_eq
  rw [ht, Nat.add_mul_div_right _ _ (by positivity), BitVec.toNat_ofNat, BitVec.toNat_ofNat]
  omega

theorem wholeBytes_same {t t' : Nat} (h : t' / 8 = t / 8) (b : Nat) :
    wholeBytes t' b = wholeBytes t b := by
  rw [wholeBytes, h, wholeBytes]

theorem wholeBytes_next {t t' : Nat} (h : t' / 8 = t / 8 + 1) (b : Nat) :
    wholeBytes t' b = wholeBytes t b ++ [BitVec.ofNat 8 (b / 2 ^ (8 * (t / 8)))] := by
  rw [wholeBytes, h, List.range_succ, List.map_append, List.map_singleton, wholeBytes]

/-! ## The accumulator (40_packer.md R111) -/

/-- Everything `pushIndex` does within the bounds of 10_state.md R42. -/
theorem pushIndex_eq {i : Nat} {s : State} (hn : s.nbits.toNat ≤ 7)
    (ha : s.acc.toNat < 2 ^ s.nbits.toNat) (hw : s.width.toNat ≤ 8) (hi : i < 2 ^ s.width.toNat) :
    pushIndex i s = .next
      (if 8 ≤ s.nbits.toNat + s.width.toNat then
        { s with
          pko := s.pko ++ [BitVec.ofNat 8 (s.acc.toNat + i * 2 ^ s.nbits.toNat)]
          acc := BitVec.ofNat 15 ((s.acc.toNat + i * 2 ^ s.nbits.toNat) / 256)
          nbits := BitVec.ofNat 4 (s.nbits.toNat + s.width.toNat - 8) }
      else
        { s with
          acc := BitVec.ofNat 15 (s.acc.toNat + i * 2 ^ s.nbits.toNat)
          nbits := BitVec.ofNat 4 (s.nbits.toNat + s.width.toNat) }) := by
  obtain ⟨hor, -, hlt⟩ := pushIndex_value i s hn ha hw hi
  obtain ⟨hbad, -⟩ | ⟨-, h8, -, he⟩ | ⟨-, h8, he⟩ := pushIndex_cases i s
  · omega
  · rw [he, if_pos h8, hor, Nat.shiftRight_eq_div_pow]
  · rw [he, if_neg (by omega), hor]

theorem execPkPush_of_pack (i : Half) {s : State} (hm : s.mode = .pack) :
    execPkPush i s =
      if s.psize.toNat ≤ i.toNat then .next (raise .indexRange (wordPkPush i) s)
      else pushIndex i.toNat s := by
  rw [execPkPush, inMode_own (by decide) hm]
  simp only [indexOutOfRange_iff]

/-- Everything the tail policy does (40_packer.md R106, R112). -/
theorem emitTail_eq (s : State) :
    emitTail s = { s with
      pko := s.pko ++
        if s.variant = .max ∧ 0 < s.nbits.toNat then [BitVec.ofNat 8 s.acc.toNat] else [] } := by
  have hpos : s.nbits ≠ 0 ↔ 0 < s.nbits.toNat := by
    rw [Nat.pos_iff_ne_zero, ne_eq, ne_eq, ← BitVec.toNat_inj]
    rfl
  simp only [emitTail, hpos, and_comm (a := 0 < _)]
  split_ifs
  · rfl
  · rw [List.append_nil]

theorem execPkEnd_of_pack {s : State} (hm : s.mode = .pack) :
    execPkEnd s = .next { emitTail s with acc := 0, nbits := 0, mode := .idle } := by
  rw [execPkEnd, inMode_own (by decide) hm]

/-! ## An open transaction (40_packer.md R118) -/

section Transaction

variable {im : Image} {w : Nat}

theorem accepted_size_le (h : im.Accepted w) : im.size.toNat ≤ 256 := by
  obtain ⟨-, hmax, -⟩ := widthOf_eq_ok h.1
  exact hmax.trans (maxPal_le _)

theorem accepted_width_le (h : im.Accepted w) : w ≤ 8 := by
  obtain ⟨hk, -, rfl⟩ := widthOf_eq_ok h.1
  exact (paletteBits_bounds hk (accepted_size_le h)).2

theorem accepted_index_lt (h : im.Accepted w) {i : Half} (hi : i.toNat < im.size.toNat) :
    i.toNat < 2 ^ w := by
  obtain ⟨-, -, rfl⟩ := widthOf_eq_ok h.1
  exact hi.trans_le (le_two_pow_paletteBits _)

theorem accepted_bitString_lt (h : im.Accepted w) :
    bitString w (im.indices.map BitVec.toNat) < 2 ^ (im.indices.length * w) := by
  rw [← List.length_map (f := BitVec.toNat)]
  refine bitString_lt fun x hx => ?_
  obtain ⟨i, hi, rfl⟩ := List.mem_map.mp hx
  exact accepted_index_lt h (h.2 i hi)

/-- The state that R118 gives for the open transaction `im` of width `w`, begun in `s`. -/
def packState (im : Image) (w : Nat) (s : State) : State :=
  { s with
    mode := .pack
    variant := im.variant
    psize := BitVec.ofNat 9 im.size.toNat
    width := BitVec.ofNat 4 w
    nbits := BitVec.ofNat 4 (im.indices.length * w % 8)
    acc := BitVec.ofNat 15
      (bitString w (im.indices.map BitVec.toNat) / 2 ^ (8 * (im.indices.length * w / 8)))
    pko := s.pko ++ im.bytesSoFar w }

theorem packState_acc_lt (h : im.Accepted w) :
    bitString w (im.indices.map BitVec.toNat) / 2 ^ (8 * (im.indices.length * w / 8)) <
      2 ^ (im.indices.length * w % 8) :=
  leftover_lt (accepted_bitString_lt h)

@[simp] theorem packState_mode (im : Image) (w : Nat) (s : State) :
    (packState im w s).mode = .pack := rfl

/-- Every number of R118 fits its register. -/
theorem openIn_packState (h : im.Accepted w) (s : State) : im.OpenIn w (packState im w s) := by
  have hk := accepted_size_le h
  have hw := accepted_width_le h
  have hacc := packState_acc_lt h
  have hle : 2 ^ (im.indices.length * w % 8) ≤ 2 ^ 7 := Nat.pow_le_pow_right (by decide) (by omega)
  refine ⟨rfl, ?_, ?_, ?_, ?_⟩
  all_goals
    refine (BitVec.toNat_ofNat _ _).trans (Nat.mod_eq_of_lt ?_)
    omega

theorem execPkPush_packState (h : im.Accepted w) {i : Half} (hi : i.toNat < im.size.toNat)
    (s : State) : execPkPush i (packState im w s) =
      .next (packState { im with indices := im.indices ++ [i] } w s) := by
  obtain ⟨-, hpsize, hwidth, hnbits, hacc⟩ := openIn_packState h s
  have hw := accepted_width_le h
  rw [execPkPush_of_pack i (packState_mode im w s), if_neg (by omega), pushIndex_eq (by omega)
    (by rw [hacc, hnbits]; exact packState_acc_lt h) (by omega)
    (by rw [hwidth]; exact accepted_index_lt h hi), hwidth, hnbits, hacc, ← leftover_add]
  have ht : (im.indices ++ [i]).length * w = im.indices.length * w + w := by
    rw [List.length_append, List.length_singleton, Nat.succ_mul]
  have hb : bitString w ((im.indices ++ [i]).map BitVec.toNat) =
      bitString w (im.indices.map BitVec.toNat) + 2 ^ (im.indices.length * w) * i.toNat := by
    simp [bitString_append]
  split_ifs with h8
  · have hq : (im.indices.length * w + w) / 8 = im.indices.length * w / 8 + 1 := by omega
    have hr : (im.indices.length * w + w) % 8 = im.indices.length * w % 8 + w - 8 := by omega
    simp only [packState, Image.bytesSoFar, ht, hb, hr, wholeBytes_next hq, wholeBytes_add, hq,
      Nat.mul_add, Nat.pow_add, Nat.div_div_eq_div_mul, List.append_assoc]
  · have hq : (im.indices.length * w + w) / 8 = im.indices.length * w / 8 := by omega
    have hr : (im.indices.length * w + w) % 8 = im.indices.length * w % 8 + w := by omega
    simp only [packState, Image.bytesSoFar, ht, hb, hr, wholeBytes_same hq, wholeBytes_add, hq]

theorem execPkPush_packState_outOfRange (h : im.Accepted w) {i : Half}
    (hi : im.size.toNat ≤ i.toNat) (s : State) : execPkPush i (packState im w s) =
      .next (raise .indexRange (wordPkPush i) (packState im w s)) := by
  obtain ⟨-, hpsize, -⟩ := openIn_packState h s
  rw [execPkPush_of_pack i (packState_mode im w s), if_pos (by omega)]

theorem feed_execPkPush_packState (h : im.Accepted w) {idx : List Half}
    (hidx : ∀ i ∈ idx, i.toNat < im.size.toNat) (s : State) :
    feed execPkPush idx (packState im w s) =
      .next (packState { im with indices := im.indices ++ idx } w s) := by
  induction idx generalizing im with
  | nil => rw [feed_nil, List.append_nil]
  | cons i idx ih =>
    obtain ⟨hi, hidx⟩ := List.forall_mem_cons.mp hidx
    have hmore : Image.Accepted { im with indices := im.indices ++ [i] } w :=
      ⟨h.1, List.forall_mem_append.mpr ⟨h.2, List.forall_mem_singleton.mpr hi⟩⟩
    rw [feed_cons, execPkPush_packState h hi, andThen_next, ih hmore hidx, List.append_assoc,
      List.singleton_append]

/-- The bits in the accumulator are the leftover bits of R106. -/
theorem tailBytes_of_openIn {s : State} (h : im.OpenIn w s) :
    tailBytes im.variant (im.indices.length * w) (bitString w (im.indices.map BitVec.toNat)) =
      if s.variant = .max ∧ 0 < s.nbits.toNat then [BitVec.ofNat 8 s.acc.toNat] else [] := by
  obtain ⟨hv, -, -, hnbits, hacc⟩ := h
  rw [hv, hnbits, hacc]
  cases im.variant with
  | classic => rfl
  | max => simp [tailBytes, Nat.pos_iff_ne_zero]

theorem execPkEnd_packState (h : im.Accepted w) {bytes : List Byte} (hbytes : im.packed = .ok bytes)
    (s : State) : execPkEnd (packState im w s) = .next
      { packState im w s with pko := s.pko ++ bytes, acc := 0, nbits := 0, mode := .idle } := by
  rw [Image.packed_of_accepted h, tailBytes_of_openIn (openIn_packState h s)] at hbytes
  cases hbytes
  rw [execPkEnd_of_pack (packState_mode im w s), emitTail_eq, ← List.append_assoc]
  rfl

end Transaction

/-! ## The transaction as a whole (43_pseudo_ops.md R172) -/

theorem execPkCfg_of_fault {v : Variant} {k : Half} {f : Cause} {s : State} (hm : s.mode = .idle)
    (hw : widthOf Config.k1Policy v k.toNat = .fault f) :
    execPkCfg v k s = .next (raise f (wordPkCfg v k) s) := by
  rw [execPkCfg, inMode_own (by decide) hm, paletteWidth, hw]

theorem execPkCfg_of_ok {v : Variant} {k : Half} {w : Nat} {s : State} (hm : s.mode = .idle)
    (hw : widthOf Config.k1Policy v k.toNat = .ok w) :
    execPkCfg v k s = .next (packState ⟨v, k, []⟩ w s) := by
  rw [execPkCfg, inMode_own (by decide) hm, paletteWidth, hw]
  simp [openPack, packState, Image.bytesSoFar, wholeBytes]

/-- The palette faults are not the index fault. -/
theorem widthOf_ne_indexRange (p : K1Policy) (v : Variant) (k : Nat) :
    widthOf p v k ≠ .fault .indexRange := by
  unfold widthOf
  split_ifs <;> simp

section Transaction

variable {v : Variant} {k : Half} {idx : List Half} {w : Nat} {s : State}

/-- The indices of the transaction, from the state that `PK.CFG` leaves. -/
theorem feed_execPkPush_opened (h : Image.Accepted ⟨v, k, idx⟩ w) (s : State) :
    feed execPkPush idx (packState ⟨v, k, []⟩ w s) = .next (packState ⟨v, k, idx⟩ w s) :=
  feed_execPkPush_packState (im := ⟨v, k, []⟩) ⟨h.1, by simp⟩ h.2 s

theorem feed_execPkPush_of_fault (idx : List Half) (hm : s.mode = .fault) :
    feed execPkPush idx s = .next s :=
  feed_of_fault (fun _ _ => inMode_fault) idx hm

theorem execPkEnd_of_fault (hm : s.mode = .fault) : execPkEnd s = .next s := inMode_fault hm

theorem packImage_of_palette_fault {f : Cause} (hm : s.mode = .idle)
    (hw : widthOf Config.k1Policy v k.toNat = .fault f) (idx : List Half) :
    packImage v k idx s = .next (raise f (wordPkCfg v k) s) := by
  rw [packImage, execPkCfg_of_fault hm hw, andThen_next,
    feed_execPkPush_of_fault _ (raise_mode _ _ _), andThen_next,
    execPkEnd_of_fault (raise_mode _ _ _)]

theorem packImage_of_ok (hm : s.mode = .idle) (hw : widthOf Config.k1Policy v k.toNat = .ok w)
    (idx : List Half) : packImage v k idx s =
      andThen (feed execPkPush idx (packState ⟨v, k, []⟩ w s)) execPkEnd := by
  rw [packImage, execPkCfg_of_ok hm hw, andThen_next]

theorem packImage_of_accepted {bytes : List Byte} (hm : s.mode = .idle)
    (h : Image.Accepted ⟨v, k, idx⟩ w) (hbytes : Image.packed ⟨v, k, idx⟩ = .ok bytes) :
    packImage v k idx s = .next
      { packState ⟨v, k, idx⟩ w s with
        pko := s.pko ++ bytes, acc := 0, nbits := 0, mode := .idle } := by
  rw [packImage_of_ok hm h.1, feed_execPkPush_opened h, andThen_next, execPkEnd_packState h hbytes]

/-- The first index out of range takes the fault, and the words after it are ignored
(40_packer.md R113, R119). -/
theorem packImage_of_indexRange {i : Half} (hm : s.mode = .idle) (h : Image.Accepted ⟨v, k, idx⟩ w)
    (hi : k.toNat ≤ i.toNat) (after : List Half) :
    packImage v k (idx ++ i :: after) s =
      .next (raise .indexRange (wordPkPush i) (packState ⟨v, k, idx⟩ w s)) := by
  rw [packImage_of_ok hm h.1, feed_append, feed_execPkPush_opened h, andThen_next, feed_cons,
    execPkPush_packState_outOfRange h hi, andThen_next,
    feed_execPkPush_of_fault _ (raise_mode _ _ _), andThen_next, execPkEnd_of_fault (raise_mode _ _ _)]

/-- The operations of a packing transaction in order are the pseudo-operation `PACK`. -/
theorem feed_exec_expandPack (v : Variant) (k : Half) (idx : List Half) (s : State) :
    feed exec (expandPack v k idx) s = packImage v k idx s := by
  have hlast (t : State) : feed exec [.pkEnd] t = execPkEnd t := by
    rw [feed_cons]
    cases h : exec .pkEnd t <;> exact h.symm
  rw [expandPack, List.cons_append, feed_cons, packImage]
  congr 1
  funext t
  rw [feed_append, feed_map, funext hlast]
  rfl

/-- The words of a packing transaction, one a step, are the pseudo-operation `PACK`
(43_pseudo_ops.md R172). -/
theorem run_encodePack {rest : List Input}
    (hp : s.pending = (encodePack v k idx).map .word ++ rest) :
    Sys2Proof.core.run (idx.length + 2) s = packImage v k idx (withPending rest s) := by
  have hlen : (encodePack v k idx).length = idx.length + 2 := by simp [encodePack]
  rw [← hlen, run_words hp, ← feed_map, map_decode_encodePack, feed_exec_expandPack]

end Transaction

/-! ## The statement -/

theorem pack_of_width_fault {p : K1Policy} {v : Variant} {k : Nat} {f : Cause}
    (hw : widthOf p v k = .fault f) (idx : List Nat) : pack p v k idx = .fault f := by
  rw [pack, hw]

theorem pack_of_indexRange {p : K1Policy} {v : Variant} {k w : Nat} {idx : List Nat}
    (hw : widthOf p v k = .ok w) (h : ∃ i ∈ idx, k ≤ i) : pack p v k idx = .fault .indexRange := by
  rw [pack, hw]
  exact if_pos h

/-- Settles O18: a run of the transaction's words is the pseudo-operation `PACK`, which faults at
`PK.CFG`, or at the first index out of range, or goes through `packState` index by index. -/
theorem packTransactionComputesPack : Obligations.PackTransactionComputesPack := by
  constructor
  · intro v k idx s rest hm hp
    have hm' : (withPending rest s).mode = .idle := hm
    rw [run_encodePack hp]
    cases hw : widthOf Config.k1Policy v k.toNat with
    | fault f =>
      have hf : f ≠ .indexRange := fun h => widthOf_ne_indexRange _ _ _ (h ▸ hw)
      rw [packImage_of_palette_fault hm' hw, pack_of_width_fault hw]
      exact ⟨_, rfl, rfl, rfl, rfl, rfl, (if_neg hf).symm⟩
    | ok w =>
      cases hfind : idx.find? fun i => decide (k.toNat ≤ i.toNat) with
      | none =>
        have h : Image.Accepted ⟨v, k, idx⟩ w :=
          ⟨hw, fun i hi => by simpa using List.find?_eq_none.mp hfind i hi⟩
        have hpack : pack Config.k1Policy v k.toNat (idx.map BitVec.toNat) = .ok _ :=
          Image.packed_of_accepted h
        rw [packImage_of_accepted hm' h hpack, hpack]
        exact ⟨_, rfl, rfl, rfl, rfl, rfl, rfl, rfl⟩
      | some i =>
        obtain ⟨hi, before, after, rfl, hbefore⟩ := List.find?_eq_some_iff_append.mp hfind
        have hi : k.toNat ≤ i.toNat := of_decide_eq_true hi
        have h : Image.Accepted ⟨v, k, before⟩ w := ⟨hw, fun x hx => by simpa using hbefore x hx⟩
        rw [packImage_of_indexRange hm' h hi, pack_of_indexRange hw ⟨i.toNat, by simp, hi⟩]
        exact ⟨_, rfl, rfl, rfl, rfl, rfl, rfl⟩
  · intro v k idx s w hm hw hidx
    have h : Image.Accepted ⟨v, k, idx⟩ w := ⟨hw, hidx⟩
    change andThen (execPkCfg v k s) (feed execPkPush idx) = _
    rw [execPkCfg_of_ok hm hw, andThen_next, feed_execPkPush_opened h]
    rfl

end Sys2Proof.Proofs

/-! PROOF. The frame transaction: after every argument the framer's registers and `TXO` are those of
the frame so far (41_framer.md R143), which `frameState` says and each operation keeps. -/

namespace Sys2Proof.Proofs

open Sys2Proof Sys2Proof.Machine

/-! ## The framer's words (30_encoding.md R71, R72) -/

/-- A word does not match a row of another operation number (30_encoding.md R73). -/
theorem masked_ne_of_opField {w mask pattern : Word} {op : BitVec 4} (hop : opField w = op)
    (hmask : opField mask = BitVec.allOnes 4) (hne : op ≠ opField pattern) : w &&& mask ≠ pattern :=
  fun h => hne (hop.symm.trans (field_of_masked h hmask))

theorem decode_of_frBegin_row {w : Word} (h : w &&& 0xFF000000 = 0x40000000) :
    decode w = .frBegin (aField w) (bField w) := by
  have hop : opField w = 4 := field_of_masked h (by decide)
  rw [decode, if_neg (masked_ne_of_opField hop (by decide) (by decide)),
    if_neg (masked_ne_of_opField hop (by decide) (by decide)),
    if_neg (masked_ne_of_opField hop (by decide) (by decide)), if_pos h]

theorem decode_of_frData_row {w : Word} (h : w &&& 0xFFFFFF00 = 0x50000000) :
    decode w = .frData (byteField w) := by
  have hop : opField w = 5 := field_of_masked h (by decide)
  rw [decode, if_neg (masked_ne_of_opField hop (by decide) (by decide)),
    if_neg (masked_ne_of_opField hop (by decide) (by decide)),
    if_neg (masked_ne_of_opField hop (by decide) (by decide)),
    if_neg (masked_ne_of_opField hop (by decide) (by decide)), if_pos h]

theorem decode_wordFrBegin (c : Byte) (n : Half) : decode (wordFrBegin c n) = .frBegin c n := by
  have hheader : (0x4#4 ++ 0#4 ++ c) &&& 0xFF00#16 = 0x4000#16 := append_masked 0x40#8 0xFF#8 c
  have hrow : wordFrBegin c n &&& 0xFF000000 = 0x40000000 :=
    (append_masked (0x4#4 ++ 0#4 ++ c) 0xFF00#16 n).trans (congrArg (· ++ 0#16) hheader)
  have hc : aField (wordFrBegin c n) = c := by
    rw [aField, wordFrBegin, BitVec.extractLsb'_append_eq_of_le (by decide)]
    exact BitVec.extractLsb'_append_eq_right
  have hn : bField (wordFrBegin c n) = n := BitVec.extractLsb'_append_eq_right
  rw [decode_of_frBegin_row hrow, hc, hn]

theorem decode_wordFrData (b : Byte) : decode (wordFrData b) = .frData b := by
  have hrow : wordFrData b &&& 0xFFFFFF00 = 0x50000000 := append_masked 0x500000#24 0xFFFFFF#24 b
  have hb : byteField (wordFrData b) = b := BitVec.extractLsb'_append_eq_right
  rw [decode_of_frData_row hrow, hb]

theorem map_decode_encodeFrame (c : Byte) (args : List Byte) :
    (encodeFrame c args).map decode = expandFrame c args := by
  have hdata : decode ∘ wordFrData = .frData := funext decode_wordFrData
  rw [encodeFrame, expandFrame, List.map_cons, List.map_map, decode_wordFrBegin, hdata]

/-! ## A frame so far (41_framer.md R143) -/

/-- The sum over the length, the command byte and the arguments given, before it is reduced modulo
65536. -/
def frameSum (c : Byte) (n : Nat) (given : List Byte) : Nat :=
  byteSum (le16 (n + 3)) + c.toNat + byteSum given

theorem frameSum_append_one (c : Byte) (n : Nat) (given : List Byte) (b : Byte) :
    frameSum c n (given ++ [b]) = frameSum c n given + b.toNat := by
  simp [frameSum, Nat.add_assoc]

/-- The register takes the next byte up from its reduced value (30_encoding.md R82). -/
theorem ofNat16_mod_add (x y : Nat) : BitVec.ofNat 16 (x % 65536 + y) = BitVec.ofNat 16 (x + y) :=
  BitVec.eq_of_toNat_eq (by simp only [BitVec.toNat_ofNat, Nat.mod_add_mod])

theorem checksum_eq_frameSum (c : Byte) (args : List Byte) :
    checksum c args = frameSum c args.length args % 65536 := rfl

/-- The state that R143 gives for a frame of `n` arguments begun in `s`, of which `given` have come;
with the last of them the trailer has gone out and the mode is `IDLE` again (R138). -/
def frameState (c : Byte) (n : Nat) (given : List Byte) (s : State) : State :=
  { s with
    mode := if n - given.length = 0 then .idle else .frame
    frem := BitVec.ofNat 16 (n - given.length)
    csum := BitVec.ofNat 16 (frameSum c n given)
    txo := s.txo ++ frameHeader c n ++ given ++
      closing (n - given.length) (frameSum c n given % 65536) }

section Frame

variable {c : Byte} {n : Nat} {given : List Byte} {s : State}

theorem frameState_mode_open (h : given.length < n) : (frameState c n given s).mode = .frame :=
  if_neg (by omega)

theorem frameState_mode_whole (c : Byte) (args : List Byte) (s : State) :
    (frameState c args.length args s).mode = .idle :=
  if_pos (Nat.sub_self _)

/-- Inside a frame nothing of the trailer is out. -/
theorem frameState_txo_open (h : given.length < n) :
    (frameState c n given s).txo = s.txo ++ frameHeader c n ++ given := by
  rw [frameState, closing_pos _ (by omega), List.append_nil]

/-- With the last argument, `TXO` has gained the frame of R133. -/
theorem frameState_txo_whole (c : Byte) (args : List Byte) (s : State) :
    (frameState c args.length args s).txo = s.txo ++ frameBytes c args := by
  simp only [frameState, frameBytes, Nat.sub_self, closing_zero, checksum_eq_frameSum,
    List.append_assoc]

theorem frameState_frem_toNat (hn : n ≤ 65532) :
    (frameState c n given s).frem.toNat = n - given.length :=
  ofNat16_toNat (by omega)

/-! ## The operations on a frame so far -/

theorem execFrBegin_of_fits (c : Byte) {n : Half} (hm : s.mode = .idle) (hn : n.toNat ≤ 65532) :
    execFrBegin c n s = .next (frameState c n.toNat [] s) := by
  have hfits : ¬ frameTooLarge n = true := by rw [frameTooLarge_iff]; omega
  have hsum : (byteSum (le16 (n.toNat + 3)) + c.toNat) % 65536 =
      byteSum (le16 (n.toNat + 3)) + c.toNat := by
    have hc := c.isLt
    rw [byteSum_le16]
    omega
  have hzero : n = 0#16 ↔ n.toNat = 0 := BitVec.toNat_inj.symm
  rw [execFrBegin, inMode_own (by decide) hm, if_neg hfits, frameOpen_eq c _ s hn]
  simp [frameState, frameSum, hsum, hzero]

theorem execFrBegin_of_tooLarge (c : Byte) {n : Half} (hm : s.mode = .idle)
    (hn : 65532 < n.toNat) :
    execFrBegin c n s = .next (raise .frameTooLarge (wordFrBegin c n) s) := by
  rw [execFrBegin, inMode_own (by decide) hm, if_pos ((frameTooLarge_iff n).mpr hn)]

theorem execFrData_frameState (b : Byte) (h : given.length < n) (hn : n ≤ 65532) :
    execFrData b (frameState c n given s) = .next (frameState c n (given ++ [b]) s) := by
  have hfrem : (frameState c n given s).frem.toNat = n - given.length := frameState_frem_toNat hn
  have hmode := frameState_mode_open (c := c) (s := s) h
  have htxo := frameState_txo_open (c := c) (s := s) h
  have hcsum : (frameState c n given s).csum.toNat = frameSum c n given % 65536 :=
    BitVec.toNat_ofNat _ _
  rw [execFrData, inMode_own (by decide) hmode, takeArgument_eq b _ (by omega), hfrem, hmode, htxo,
    hcsum]
  have hleft : n - (given ++ [b]).length = n - given.length - 1 := by simp; omega
  have hlast : n - given.length = 1 ↔ n - given.length - 1 = 0 := by omega
  simp only [frameState, hleft, hlast, frameSum_append_one, Nat.mod_add_mod, ofNat16_mod_add,
    List.append_assoc]

theorem feed_execFrData_frameState {more : List Byte} (h : given.length + more.length ≤ n)
    (hn : n ≤ 65532) :
    feed execFrData more (frameState c n given s) = .next (frameState c n (given ++ more) s) := by
  induction more generalizing given with
  | nil => rw [feed_nil, List.append_nil]
  | cons b more ih =>
    rw [List.length_cons] at h
    rw [feed_cons, execFrData_frameState b (by omega) hn, andThen_next, ih (by simp; omega),
      List.append_assoc, List.singleton_append]

theorem feed_execFrData_of_fault (args : List Byte) (hm : s.mode = .fault) :
    feed execFrData args s = .next s :=
  feed_of_fault (fun _ _ => inMode_fault) args hm

/-- The opening operation and the arguments `given`, up to the last of the `n` announced. -/
theorem frBegin_then_frData (c : Byte) {n : Half} (hm : s.mode = .idle) (hn : n.toNat ≤ 65532)
    (h : given.length ≤ n.toNat) :
    andThen (execFrBegin c n s) (feed execFrData given) =
      .next (frameState c n.toNat given s) := by
  rw [execFrBegin_of_fits c hm hn, andThen_next, feed_execFrData_frameState (by simpa using h) hn,
    List.nil_append]

end Frame

/-! ## The transaction as a whole (43_pseudo_ops.md R173) -/

section Transaction

variable {args : List Byte} {s : State}

/-- A list that its count can say is the run of its operations. -/
theorem sendFrame_of_expansion (c : Byte) (h : args.length ≤ 65535) (s : State) :
    sendFrame c args s =
      andThen (execFrBegin c (BitVec.ofNat 16 args.length) s) (feed execFrData args) := by
  have hshort : ¬ listTooLong args = true := by simpa [listTooLong] using h
  rw [sendFrame, if_neg hshort]

theorem sendFrame_of_fits (c : Byte) (hm : s.mode = .idle) (h : args.length ≤ 65532) :
    sendFrame c args s = .next (frameState c args.length args s) := by
  have hcount : (BitVec.ofNat 16 args.length).toNat = args.length := ofNat16_toNat (by omega)
  rw [sendFrame_of_expansion c (by omega), frBegin_then_frData c hm (by omega) (by omega), hcount]

/-- `FR.BEGIN` takes the fault, and the arguments after it are ignored (41_framer.md R132). -/
theorem sendFrame_of_tooLarge (c : Byte) (hm : s.mode = .idle) (h : 65532 < args.length)
    (h' : args.length ≤ 65535) :
    sendFrame c args s = .next
      (raise .frameTooLarge (wordFrBegin c (BitVec.ofNat 16 args.length)) s) := by
  have hcount : (BitVec.ofNat 16 args.length).toNat = args.length := ofNat16_toNat (by omega)
  rw [sendFrame_of_expansion c h', execFrBegin_of_tooLarge c hm (by omega), andThen_next,
    feed_execFrData_of_fault _ (raise_mode _ _ _)]

/-- The operations of a frame in order are the pseudo-operation `FRAME`. -/
theorem feed_exec_expandFrame (c : Byte) (h : args.length ≤ 65535) (s : State) :
    feed exec (expandFrame c args) s = sendFrame c args s := by
  rw [sendFrame_of_expansion c h, expandFrame, feed_cons, funext (feed_map exec Instr.frData args)]
  rfl

/-- The words of a frame, one a step, are the pseudo-operation `FRAME` (43_pseudo_ops.md R173). -/
theorem run_encodeFrame {c : Byte} {rest : List Input} (h : args.length ≤ 65535)
    (hp : s.pending = (encodeFrame c args).map .word ++ rest) :
    Sys2Proof.core.run (args.length + 1) s = sendFrame c args (withPending rest s) := by
  have hlen : (encodeFrame c args).length = args.length + 1 := by simp [encodeFrame]
  rw [← hlen, run_words hp, ← feed_map, map_decode_encodeFrame, feed_exec_expandFrame c h]

end Transaction

/-! ## The statements -/

theorem frame_of_fits (c : Byte) {args : List Byte} (h : args.length ≤ 65532) :
    frame c args = .ok (frameBytes c args) :=
  if_neg (by simp only [Config.lenMax, Config.lenOverhead]; omega)

theorem frame_of_tooLarge (c : Byte) {args : List Byte} (h : 65532 < args.length) :
    frame c args = .fault .frameTooLarge :=
  if_pos (by simp only [Config.lenMax, Config.lenOverhead]; omega)

/-- Settles O27: a run of the transaction's words is the pseudo-operation `FRAME`, which faults at
`FR.BEGIN` or goes through `frameState` argument by argument to the whole frame. -/
theorem frameTransactionComputesFrame : Obligations.FrameTransactionComputesFrame := by
  constructor
  · intro c args s rest hm hlen hp
    have hm' : (withPending rest s).mode = .idle := hm
    rw [run_encodeFrame hlen hp]
    by_cases hfits : args.length ≤ 65532
    · rw [sendFrame_of_fits c hm' hfits, frame_of_fits c hfits]
      exact ⟨_, rfl, rfl, rfl, frameState_txo_whole _ _ _, frameState_mode_whole _ _ _⟩
    · rw [sendFrame_of_tooLarge c hm' (by omega) hlen, frame_of_tooLarge c (by omega)]
      exact ⟨_, rfl, rfl, rfl, rfl, rfl, rfl, rfl⟩
  · intro c args hlen
    exact frame_of_tooLarge c (by omega)

/-- Settles O28: the state after the opening and `given` is `frameState`, whose fields inside a frame
are those of R143. -/
theorem frameStateAfterArguments : Obligations.FrameStateAfterArguments := by
  intro c n given s hm hgiven hn
  have hsum : byteSum (le16 (n.toNat + 3)) = (n.toNat + 3) % 256 + (n.toNat + 3) / 256 := by
    rw [byteSum_le16]
    omega
  have htxo := frameState_txo_open (c := c) (s := s) hgiven
  have hmode := frameState_mode_open (c := c) (s := s) hgiven
  calc andThen (exec (.frBegin c n) s) (feed (fun b => exec (.frData b)) given)
      = .next (frameState c n.toNat given s) := frBegin_then_frData c hm hn hgiven.le
    _ = .next { frameState c n.toNat given s with
          mode := .frame, txo := s.txo ++ frameHeader c n.toNat ++ given } := by
        rw [← htxo, ← hmode]
    _ = _ := by
        simp only [frameState, frameSum, hsum]
        rfl

end Sys2Proof.Proofs

/-! PROOF. The chunker's functions: how `CHUNK` cuts a payload, and that its packets give the payload
back (42_chunker.md R150 to R160). -/

namespace Sys2Proof.Proofs

open Sys2Proof Sys2Proof.Machine

/-! ## When a payload is accepted (42_chunker.md R155, R156) -/

section Accepted

variable {p : List Byte}

theorem chunk_of_fits (h : p.length ≤ 51200) : chunk p = .ok (packets p) :=
  if_neg (Nat.not_lt.mpr h)

theorem chunk_of_tooLarge (h : 51200 < p.length) : chunk p = .fault .payloadTooLarge :=
  if_pos h

theorem chunk_eq_ok {ks : List (List Byte)} (h : chunk p = .ok ks) :
    p.length ≤ 51200 ∧ ks = packets p := by
  rcases Nat.lt_or_ge 51200 p.length with hlarge | hfits
  · cases (chunk_of_tooLarge hlarge).symm.trans h
  · cases (chunk_of_fits hfits).symm.trans h
    exact ⟨hfits, rfl⟩

theorem anim_of_fits (h : p.length ≤ 51200) : anim p = .ok (animBytes p) := by
  rw [anim, chunk_of_fits h, animBytes]

theorem anim_of_tooLarge (h : 51200 < p.length) : anim p = .fault .payloadTooLarge := by
  rw [anim, chunk_of_tooLarge h]

end Accepted

/-! ## Packets and their slices (42_chunker.md R151 to R153) -/

section Packets

variable (p : List Byte) (i : Nat)

@[simp] theorem packets_length : (packets p).length = (p.length + 199) / 200 := by
  rw [packets, List.length_map, List.length_range]
  rfl

theorem packets_getElem? {i : Nat} (h : i < (packets p).length) :
    (packets p)[i]? = some (packetOf p i) := by
  rw [packets, List.length_map, List.length_range] at h
  rw [packets, List.getElem?_map, List.getElem?_range h, Option.map_some]

theorem sliceOf_eq : sliceOf p i = (p.drop (200 * i)).take 200 := rfl

@[simp] theorem sliceOf_length : (sliceOf p i).length = min 200 (p.length - 200 * i) := by
  rw [sliceOf_eq, List.length_take, List.length_drop]

@[simp] theorem packetOf_drop_lead : (packetOf p i).drop 3 = sliceOf p i := rfl

@[simp] theorem packetOf_length : (packetOf p i).length = (sliceOf p i).length + 3 := rfl

/-- The first `n` slices are the first `200 * n` bytes: the packets are filled in order. -/
theorem flatten_map_sliceOf (n : Nat) :
    ((List.range n).map (sliceOf p)).flatten = p.take (200 * n) := by
  induction n with
  | zero => rfl
  | succ n ih =>
    rw [List.range_succ, List.map_append, List.flatten_append, ih, Nat.mul_add_one, List.take_add]
    simp [sliceOf_eq]

theorem reassemble_packets : reassemble (packets p) = p := by
  have hslices : List.drop 3 ∘ packetOf p = sliceOf p := funext (packetOf_drop_lead p)
  have hall : p.length ≤ 200 * ((p.length + 199) / 200) := by omega
  calc reassemble (packets p)
      = ((List.range ((p.length + 199) / 200)).map (sliceOf p)).flatten := by
        rw [← hslices, ← List.map_map]
        rfl
    _ = p := by rw [flatten_map_sliceOf, List.take_of_length_le hall]

end Packets

/-! ## The statements -/

/-- Settles O43: packet `i` carries slice `i`, whose length is 200 as long as another packet
follows. -/
theorem packetsFilledInOrder : Obligations.PacketsFilledInOrder := by
  intro p ks hks
  obtain ⟨-, rfl⟩ := chunk_eq_ok hks
  refine ⟨packets_length p, fun i hi => ⟨packetOf p i, packets_getElem? p hi, ?_⟩⟩
  rw [packetOf_drop_lead, sliceOf_length]
  rw [packets_length] at hi ⊢
  exact ⟨sliceOf_eq p i, by omega, by omega, by omega, by omega⟩

/-- Settles O42: a packet is its lead and its slice, and at most 256 packets are made, so both numbers
of the lead fit their fields. -/
theorem packetsReassemble : Obligations.PacketsReassemble := by
  intro p ks hks
  obtain ⟨hfits, rfl⟩ := chunk_eq_ok hks
  refine ⟨fun i hi => ?_, reassemble_packets p⟩
  have hindex : i < 256 := by
    rw [packets_length] at hi
    omega
  exact ⟨lo8 p.length, hi8 p.length, BitVec.ofNat 8 i, sliceOf p i, packets_getElem? p hi,
    ofLe16_le16 (by omega), BitVec.toNat_ofNat i 8 ▸ Nat.mod_eq_of_lt hindex⟩

end Sys2Proof.Proofs

/-! PROOF. The chunking transaction: after every payload byte the chunker's registers and `TXO` are
those of the packet so far (42_chunker.md R164), which `packetState` says and each operation keeps. -/

namespace Sys2Proof.Proofs

open Sys2Proof Sys2Proof.Machine

/-! ## The chunker's words (30_encoding.md R71, R72) -/

theorem decode_of_chBegin_row {w : Word} (h : w &&& 0xFFFF0000 = 0x60000000) :
    decode w = .chBegin (bField w) := by
  have hop : opField w = 6 := field_of_masked h (by decide)
  rw [decode, if_neg (masked_ne_of_opField hop (by decide) (by decide)),
    if_neg (masked_ne_of_opField hop (by decide) (by decide)),
    if_neg (masked_ne_of_opField hop (by decide) (by decide)),
    if_neg (masked_ne_of_opField hop (by decide) (by decide)),
    if_neg (masked_ne_of_opField hop (by decide) (by decide)), if_pos h]

theorem decode_of_chData_row {w : Word} (h : w &&& 0xFFFFFF00 = 0x70000000) :
    decode w = .chData (byteField w) := by
  have hop : opField w = 7 := field_of_masked h (by decide)
  rw [decode, if_neg (masked_ne_of_opField hop (by decide) (by decide)),
    if_neg (masked_ne_of_opField hop (by decide) (by decide)),
    if_neg (masked_ne_of_opField hop (by decide) (by decide)),
    if_neg (masked_ne_of_opField hop (by decide) (by decide)),
    if_neg (masked_ne_of_opField hop (by decide) (by decide)),
    if_neg (masked_ne_of_opField hop (by decide) (by decide)), if_pos h]

theorem decode_wordChBegin (size : Half) : decode (wordChBegin size) = .chBegin size := by
  have hrow : wordChBegin size &&& 0xFFFF0000 = 0x60000000 := append_masked 0x6000#16 0xFFFF#16 size
  have hsize : bField (wordChBegin size) = size := BitVec.extractLsb'_append_eq_right
  rw [decode_of_chBegin_row hrow, hsize]

theorem decode_wordChData (b : Byte) : decode (wordChData b) = .chData b := by
  have hrow : wordChData b &&& 0xFFFFFF00 = 0x70000000 := append_masked 0x700000#24 0xFFFFFF#24 b
  have hb : byteField (wordChData b) = b := BitVec.extractLsb'_append_eq_right
  rw [decode_of_chData_row hrow, hb]

theorem map_decode_encodeAnim (p : List Byte) : (encodeAnim p).map decode = expandAnim p := by
  have hdata : decode ∘ wordChData = .chData := funext decode_wordChData
  rw [encodeAnim, expandAnim, List.map_cons, List.map_map, decode_wordChBegin, hdata]

/-! ## One payload byte (42_chunker.md R159) -/

section Bytes

variable (b : Byte) (s : State)

theorem takePayloadByte_inside (hfrem : 2 ≤ s.frem.toNat) (hcrem : 1 ≤ s.crem.toNat) :
    takePayloadByte b s = .next
      { s with
        txo := s.txo ++ [b]
        csum := BitVec.ofNat 16 (s.csum.toNat + b.toNat)
        frem := BitVec.ofNat 16 (s.frem.toNat - 1)
        crem := BitVec.ofNat 16 (s.crem.toNat - 1) } := by
  obtain ⟨-, he⟩ | ⟨h1, -⟩ | ⟨h1, -⟩ | ⟨h1, -⟩ := takePayloadByte_cases b s (by omega) hcrem
  case inl => rw [he, closing_pos _ (by omega), List.append_nil]
  all_goals omega

theorem takePayloadByte_last (hfrem : s.frem.toNat = 1) (hcrem : s.crem.toNat = 1) :
    takePayloadByte b s = .next
      { s with
        txo := s.txo ++ [b] ++ frameTrailer ((s.csum.toNat + b.toNat) % 65536)
        csum := BitVec.ofNat 16 (s.csum.toNat + b.toNat)
        frem := 0
        crem := 0
        mode := .idle } := by
  obtain ⟨h2, -⟩ | ⟨-, -, he⟩ | ⟨-, h2, -⟩ | ⟨-, h2, -⟩ :=
    takePayloadByte_cases b s (by omega) (by omega)
  case inr.inl =>
    rw [he, hfrem, hcrem]
    rfl
  all_goals omega

/-- The last byte of a packet that is not the last: the trailer, then the next packet's header and
lead. -/
theorem takePayloadByte_next (hfrem : s.frem.toNat = 1) (hcrem : 2 ≤ s.crem.toNat)
    (hcidx : s.cidx.toNat < 255) :
    takePayloadByte b s = .next
      { s with
        txo := s.txo ++ [b] ++ frameTrailer ((s.csum.toNat + b.toNat) % 65536) ++
          frameHeader Config.cmdAnim (min 200 (s.crem.toNat - 1) + 3) ++
          packetLead s.ctotal.toNat (s.cidx.toNat + 1)
        csum := BitVec.ofNat 16
          (byteSum (le16 (min 200 (s.crem.toNat - 1) + 6)) + 0x49 +
            byteSum (packetLead s.ctotal.toNat (s.cidx.toNat + 1)))
        frem := BitVec.ofNat 16 (min 200 (s.crem.toNat - 1))
        crem := BitVec.ofNat 16 (s.crem.toNat - 1)
        cidx := BitVec.ofNat 8 (s.cidx.toNat + 1) } := by
  have hcrem16 : (BitVec.ofNat 16 (s.crem.toNat - 1)).toNat = s.crem.toNat - 1 :=
    ofNat16_toNat (by omega)
  have hcidx8 : (BitVec.ofNat 8 (s.cidx.toNat + 1)).toNat = s.cidx.toNat + 1 := by
    rw [BitVec.toNat_ofNat]
    omega
  obtain ⟨h2, -⟩ | ⟨-, h1, -⟩ | ⟨-, -, h255, -⟩ | ⟨-, -, -, he⟩ :=
    takePayloadByte_cases b s (by omega) (by omega)
  case inr.inr.inr =>
    rw [he, chunkOpen_eq _ (by simp only [hcrem16]; omega)]
    simp only [hcrem16, hcidx8, hfrem, Nat.sub_self, closing_zero]
  all_goals omega

end Bytes

/-! ## The bytes of a packet so far -/

/-- The frames of the packets before packet `i`. -/
def packetFrames (p : List Byte) (i : Nat) : List Byte :=
  ((List.range i).map fun k => frameBytes Config.cmdAnim (packetOf p k)).flatten

/-- What has gone out when packet `i` is open and `r` bytes of its slice have been given. -/
def animSoFar (p : List Byte) (i r : Nat) : List Byte :=
  packetFrames p i ++ frameHeader Config.cmdAnim (packetOf p i).length ++ (packetOf p i).take (r + 3)

/-- The sum over the open packet's frame so far, before it is reduced modulo 65536. -/
def packetSum (p : List Byte) (i r : Nat) : Nat :=
  frameSum Config.cmdAnim (packetOf p i).length ((packetOf p i).take (r + 3))

section SoFar

variable {p : List Byte} {i r : Nat} {b : Byte}

theorem packetFrames_zero (p : List Byte) : packetFrames p 0 = [] := rfl

theorem packetFrames_succ (p : List Byte) (i : Nat) :
    packetFrames p (i + 1) = packetFrames p i ++ frameBytes Config.cmdAnim (packetOf p i) := by
  simp [packetFrames, List.range_succ]

theorem animBytes_eq_packetFrames (p : List Byte) :
    animBytes p = packetFrames p ((p.length + 199) / 200) := by
  rw [animBytes, packets, List.map_map]
  rfl

theorem packetFrames_prefix {i n : Nat} (h : i ≤ n) : packetFrames p i <+: packetFrames p n := by
  induction n, h using Nat.le_induction with
  | base => exact List.prefix_rfl
  | succ n _ ih =>
    rw [packetFrames_succ]
    exact List.prefix_append_of_prefix ih

/-- A full packet's frame has 210 bytes (42_chunker.md R161). -/
theorem packetFrames_length (h : 200 * i ≤ p.length) : (packetFrames p i).length = 210 * i := by
  induction i with
  | zero => rfl
  | succ i ih =>
    rw [packetFrames_succ, List.length_append, ih (by omega), frameBytes_length, packetOf_length,
      sliceOf_length]
    omega

/-- The next byte of the open packet is the next byte of the payload. -/
theorem packetOf_take_succ (hr : r < 200) (hb : p[200 * i + r]? = some b) :
    (packetOf p i).take (r + 1 + 3) = (packetOf p i).take (r + 3) ++ [b] := by
  have hnext : (packetOf p i)[r + 3]? = some b := by
    rw [Nat.add_comm, ← List.getElem?_drop, packetOf_drop_lead, sliceOf_eq, List.getElem?_take,
      if_pos hr, List.getElem?_drop, hb]
  rw [Nat.add_right_comm, List.take_add_one, hnext, Option.toList_some]

theorem packetOf_take_whole (h : (sliceOf p i).length = r) :
    (packetOf p i).take (r + 3) = packetOf p i :=
  List.take_of_length_le (by rw [packetOf_length, h])

/-- The opened packet: nothing of its slice is out. -/
theorem animSoFar_zero (p : List Byte) (i : Nat) :
    animSoFar p i 0 = packetFrames p i ++ frameHeader Config.cmdAnim ((sliceOf p i).length + 3) ++
      packetLead p.length i := rfl

theorem packetSum_zero (p : List Byte) (i : Nat) :
    packetSum p i 0 = byteSum (le16 ((sliceOf p i).length + 6)) + 0x49 +
      byteSum (packetLead p.length i) := rfl

theorem animSoFar_succ (hr : r < 200) (hb : p[200 * i + r]? = some b) :
    animSoFar p i (r + 1) = animSoFar p i r ++ [b] := by
  rw [animSoFar, packetOf_take_succ hr hb, ← List.append_assoc, animSoFar]

theorem packetSum_succ (hr : r < 200) (hb : p[200 * i + r]? = some b) :
    packetSum p i (r + 1) = packetSum p i r + b.toNat := by
  rw [packetSum, packetOf_take_succ hr hb, frameSum_append_one, packetSum]

theorem packetSum_whole (h : (sliceOf p i).length = r) :
    packetSum p i r % 65536 = checksum Config.cmdAnim (packetOf p i) := by
  rw [packetSum, packetOf_take_whole h, checksum_eq_frameSum]

/-- With the last byte of its slice and the trailer, the packet's frame is out. -/
theorem animSoFar_close (h : (sliceOf p i).length = r) :
    animSoFar p i r ++ frameTrailer (packetSum p i r % 65536) = packetFrames p (i + 1) := by
  rw [packetSum_whole h, animSoFar, packetOf_take_whole h, packetFrames_succ, frameBytes]
  simp only [List.append_assoc]

/-- The last byte of a packet closes its frame. -/
theorem animSoFar_append_close (hslice : (sliceOf p i).length = r + 1)
    (hb : p[200 * i + r]? = some b) :
    animSoFar p i r ++ [b] ++ frameTrailer ((packetSum p i r % 65536 + b.toNat) % 65536) =
      packetFrames p (i + 1) := by
  have hr : r < 200 := by
    rw [sliceOf_length] at hslice
    omega
  rw [Nat.mod_add_mod, ← packetSum_succ hr hb, ← animSoFar_succ hr hb, animSoFar_close hslice]

/-- An open packet's bytes are the first of `ANIM` (42_chunker.md R164). -/
theorem animSoFar_eq_take (hr : r < (sliceOf p i).length) :
    animSoFar p i r = (animBytes p).take (210 * i + r + 7) := by
  rw [sliceOf_length] at hr
  have hframe : animSoFar p i r <+: packetFrames p (i + 1) := by
    rw [packetFrames_succ, frameBytes, animSoFar, List.append_assoc, List.append_assoc]
    exact (List.prefix_append_right_inj _).mpr ((List.prefix_append_right_inj _).mpr
      (List.prefix_append_of_prefix (List.take_prefix _ _)))
  have hanim : animSoFar p i r <+: animBytes p := by
    rw [animBytes_eq_packetFrames]
    exact hframe.trans (packetFrames_prefix (by omega))
  have hlength : (animSoFar p i r).length = 210 * i + r + 7 := by
    rw [animSoFar, List.length_append, List.length_append, packetFrames_length (by omega),
      frameHeader_length, List.length_take, packetOf_length, sliceOf_length]
    omega
  rw [← hlength]
  exact List.prefix_iff_eq_take.mp hanim

end SoFar

/-! ## The state inside a packet, and after the last (42_chunker.md R164) -/

/-- The state that R164 gives for a payload `p` begun in `s` when packet `i` is open and `r` bytes of
its slice have been given. -/
def packetState (p : List Byte) (i r : Nat) (s : State) : State :=
  { s with
    mode := .chunk
    ctotal := BitVec.ofNat 16 p.length
    crem := BitVec.ofNat 16 (p.length - (200 * i + r))
    cidx := BitVec.ofNat 8 i
    frem := BitVec.ofNat 16 ((sliceOf p i).length - r)
    csum := BitVec.ofNat 16 (packetSum p i r)
    txo := s.txo ++ animSoFar p i r }

/-- The state after the last byte of a payload `p` begun in `s`: the counters stand as the last packet
left them. -/
def animState (p : List Byte) (s : State) : State :=
  { s with
    mode := .idle
    ctotal := BitVec.ofNat 16 p.length
    crem := 0
    cidx := BitVec.ofNat 8 ((p.length - 1) / 200)
    frem := 0
    csum := BitVec.ofNat 16 (checksum Config.cmdAnim (packetOf p ((p.length - 1) / 200)))
    txo := s.txo ++ animBytes p }

section Transaction

variable {p : List Byte} {i r : Nat} {b : Byte} {s : State}

section Fields

variable (hp : p.length ≤ 51200)
include hp

theorem packetState_ctotal_toNat : (packetState p i r s).ctotal.toNat = p.length :=
  ofNat16_toNat (by omega)

theorem packetState_crem_toNat : (packetState p i r s).crem.toNat = p.length - (200 * i + r) :=
  ofNat16_toNat (by omega)

theorem packetState_cidx_toNat (hi : 200 * i < p.length) : (packetState p i r s).cidx.toNat = i := by
  rw [packetState, BitVec.toNat_ofNat]
  omega

end Fields

theorem packetState_frem_toNat : (packetState p i r s).frem.toNat = (sliceOf p i).length - r :=
  ofNat16_toNat (by rw [sliceOf_length]; omega)

theorem packetState_csum_toNat : (packetState p i r s).csum.toNat = packetSum p i r % 65536 :=
  BitVec.toNat_ofNat _ _

theorem execChData_packetState :
    execChData b (packetState p i r s) = takePayloadByte b (packetState p i r s) :=
  inMode_own (by decide) rfl

/-! ## The operations on a packet so far -/

theorem execChData_inside (hp : p.length ≤ 51200) (hr : r + 1 < (sliceOf p i).length)
    (hb : p[200 * i + r]? = some b) :
    execChData b (packetState p i r s) = .next (packetState p i (r + 1) s) := by
  have hfrem := packetState_frem_toNat (p := p) (i := i) (r := r) (s := s)
  have hcrem := packetState_crem_toNat (i := i) (r := r) (s := s) hp
  have hslice := sliceOf_length p i
  rw [execChData_packetState, takePayloadByte_inside b _ (by omega) (by omega), hfrem, hcrem,
    packetState_csum_toNat]
  simp only [packetState, animSoFar_succ (by omega) hb, packetSum_succ (by omega) hb,
    ofNat16_mod_add, Nat.sub_sub, Nat.add_assoc, List.append_assoc]

theorem execChData_last (hp : p.length ≤ 51200) (hlast : 200 * i + r + 1 = p.length)
    (hr : r < 200) (hb : p[200 * i + r]? = some b) :
    execChData b (packetState p i r s) = .next (animState p s) := by
  have hfrem := packetState_frem_toNat (p := p) (i := i) (r := r) (s := s)
  have hcrem := packetState_crem_toNat (i := i) (r := r) (s := s) hp
  have hslice : (sliceOf p i).length = r + 1 := by
    rw [sliceOf_length]
    omega
  have hindex : (p.length - 1) / 200 = i := by omega
  have hcount : (p.length + 199) / 200 = i + 1 := by omega
  have hclose := animSoFar_append_close hslice hb
  have hsum : BitVec.ofNat 16 (packetSum p i r % 65536 + b.toNat) =
      BitVec.ofNat 16 (checksum Config.cmdAnim (packetOf p i)) := by
    rw [ofNat16_mod_add, ← packetSum_succ hr hb, ← packetSum_whole hslice]
    exact (ofNat16_mod_add _ 0).symm
  rw [execChData_packetState, takePayloadByte_last b _ (by omega) (by omega),
    packetState_csum_toNat, hsum]
  simp only [animState, animBytes_eq_packetFrames, hindex, hcount, ← hclose, packetState,
    List.append_assoc]

theorem execChData_next (hp : p.length ≤ 51200) (hmore : 200 * (i + 1) < p.length)
    (hb : p[200 * i + 199]? = some b) :
    execChData b (packetState p i 199 s) = .next (packetState p (i + 1) 0 s) := by
  have hfrem := packetState_frem_toNat (p := p) (i := i) (r := 199) (s := s)
  have hcrem := packetState_crem_toNat (i := i) (r := 199) (s := s) hp
  have hcidx := packetState_cidx_toNat (i := i) (r := 199) (s := s) hp (by omega)
  have hslice : (sliceOf p i).length = 200 := by
    rw [sliceOf_length]
    omega
  have hleft : p.length - (200 * i + 199) - 1 = p.length - 200 * (i + 1) := by omega
  have hclose := animSoFar_append_close (r := 199) hslice hb
  rw [execChData_packetState, takePayloadByte_next b _ (by omega) (by omega) (by omega), hcrem,
    hcidx, hleft, ← sliceOf_length, packetState_csum_toNat, packetState_ctotal_toNat hp,
    ← packetSum_zero]
  simp only [packetState, animSoFar_zero, ← hclose, List.append_assoc, Nat.add_zero, Nat.sub_zero]

theorem execChBegin_opens (hm : s.mode = .idle) (hpos : 0 < p.length) (hp : p.length ≤ 51200) :
    execChBegin (BitVec.ofNat 16 p.length) s = .next (packetState p 0 0 s) := by
  have hsize : (BitVec.ofNat 16 p.length).toNat = p.length := ofNat16_toNat (by omega)
  have hfits : ¬ payloadTooLarge (BitVec.ofNat 16 p.length) = true := by
    rw [payloadTooLarge_iff]
    omega
  have hne : ¬ BitVec.ofNat 16 p.length = 0 := by
    rw [ofNat16_eq_zero (by omega)]
    omega
  have hslice : min 200 p.length = (sliceOf p 0).length := (sliceOf_length p 0).symm
  rw [execChBegin, inMode_own (by decide) hm, if_neg hfits, if_neg hne, openChunks,
    chunkOpen_eq _ (by simp only [hsize]; omega)]
  simp only [hsize, hslice, packetState, animSoFar_zero, packetSum_zero, packetFrames_zero,
    List.append_assoc, List.nil_append]
  rfl

theorem execChBegin_empty (hm : s.mode = .idle) : execChBegin 0 s = .next s := by
  rw [execChBegin, inMode_own (by decide) hm]
  rfl

theorem execChBegin_of_tooLarge {size : Half} (hm : s.mode = .idle) (h : 51200 < size.toNat) :
    execChBegin size s = .next (raise .payloadTooLarge (wordChBegin size) s) := by
  rw [execChBegin, inMode_own (by decide) hm, if_pos ((payloadTooLarge_iff size).mpr h)]

/-- After `j` bytes packet `j / 200` is open, with `j % 200` bytes of its slice given: a byte goes on
inside the packet or opens the next. -/
theorem execChData_of_more {j : Nat} (hp : p.length ≤ 51200) (hj : j + 1 < p.length)
    (hb : p[j]? = some b) :
    execChData b (packetState p (j / 200) (j % 200) s) =
      .next (packetState p ((j + 1) / 200) ((j + 1) % 200) s) := by
  have hindex : 200 * (j / 200) + j % 200 = j := Nat.div_add_mod j 200
  rw [← hindex] at hb
  by_cases hend : j % 200 = 199
  · obtain ⟨hdiv, hmod⟩ : (j + 1) / 200 = j / 200 + 1 ∧ (j + 1) % 200 = 0 := by omega
    rw [hend] at hb ⊢
    rw [hdiv, hmod]
    exact execChData_next hp (by omega) hb
  · obtain ⟨hdiv, hmod⟩ : (j + 1) / 200 = j / 200 ∧ (j + 1) % 200 = j % 200 + 1 := by omega
    rw [hdiv, hmod]
    exact execChData_inside hp (by rw [sliceOf_length]; omega) hb

/-- The first `j` payload bytes, short of the last. -/
theorem feed_execChData_take {j : Nat} (hp : p.length ≤ 51200) (hj : j < p.length) :
    feed execChData (p.take j) (packetState p 0 0 s) =
      .next (packetState p (j / 200) (j % 200) s) := by
  induction j with
  | zero => rfl
  | succ j ih =>
    have hb : p[j]? = some p[j] := List.getElem?_eq_getElem (by omega)
    rw [List.take_add_one, hb, Option.toList_some, feed_append, ih (by omega), andThen_next,
      feed_cons, execChData_of_more hp hj hb, andThen_next, feed_nil]

/-- All the payload bytes: the last comes after the `P - 1` before it. -/
theorem feed_execChData_whole (hp : p.length ≤ 51200) (hpos : 0 < p.length) :
    feed execChData p (packetState p 0 0 s) = .next (animState p s) := by
  obtain ⟨j, hj⟩ : ∃ j, j + 1 = p.length := ⟨p.length - 1, by omega⟩
  have hb : p[j]? = some p[j] := List.getElem?_eq_getElem (by omega)
  have hsplit : p.take j ++ [p[j]] = p := by rw [List.take_concat_get', hj, List.take_length]
  have hcount : 200 * (j / 200) + j % 200 = j := Nat.div_add_mod j 200
  have hlast : execChData p[j] (packetState p (j / 200) (j % 200) s) = .next (animState p s) :=
    execChData_last hp (by omega) (by omega) (by rw [hcount, hb])
  calc feed execChData p (packetState p 0 0 s)
      = feed execChData (p.take j ++ [p[j]]) (packetState p 0 0 s) := by rw [hsplit]
    _ = andThen (feed execChData (p.take j) (packetState p 0 0 s)) (feed execChData [p[j]]) :=
        feed_append _ _ _ _
    _ = .next (animState p s) := by
        rw [feed_execChData_take hp (by omega), andThen_next, feed_cons, hlast, andThen_next,
          feed_nil]

end Transaction

/-! ## The transaction as a whole (43_pseudo_ops.md R174) -/

section Whole

variable {p : List Byte} {s : State}

/-- A payload that its count can say is the run of its operations. -/
theorem execAnim_of_expansion (h : p.length ≤ 65535) (s : State) :
    execAnim p s = andThen (execChBegin (BitVec.ofNat 16 p.length) s) (feed execChData p) := by
  have hshort : ¬ listTooLong p = true := by simpa [listTooLong] using h
  rw [execAnim, if_neg hshort]

theorem execAnim_nil (hm : s.mode = .idle) : execAnim [] s = .next s := by
  rw [execAnim_of_expansion (by simp)]
  exact congrArg (andThen · (feed execChData [])) (execChBegin_empty hm)

theorem execAnim_of_fits (hm : s.mode = .idle) (hpos : 0 < p.length) (hp : p.length ≤ 51200) :
    execAnim p s = .next (animState p s) := by
  rw [execAnim_of_expansion (by omega), execChBegin_opens hm hpos hp, andThen_next,
    feed_execChData_whole hp hpos]

/-- `CH.BEGIN` takes the fault, and the payload bytes after it are ignored (42_chunker.md R155). -/
theorem execAnim_of_tooLarge (hm : s.mode = .idle) (h : 51200 < p.length) (h' : p.length ≤ 65535) :
    execAnim p s = .next
      (raise .payloadTooLarge (wordChBegin (BitVec.ofNat 16 p.length)) s) := by
  have hsize : (BitVec.ofNat 16 p.length).toNat = p.length := ofNat16_toNat (by omega)
  rw [execAnim_of_expansion h', execChBegin_of_tooLarge hm (by omega), andThen_next]
  exact feed_of_fault (fun _ _ => inMode_fault) p (raise_mode _ _ _)

/-- The operations of an animation in order are the pseudo-operation `ANIM`. -/
theorem feed_exec_expandAnim (h : p.length ≤ 65535) (s : State) :
    feed exec (expandAnim p) s = execAnim p s := by
  rw [execAnim_of_expansion h, expandAnim, feed_cons, funext (feed_map exec Instr.chData p)]
  rfl

/-- The words of an animation, one a step, are the pseudo-operation `ANIM` (43_pseudo_ops.md R174). -/
theorem run_encodeAnim {rest : List Input} (h : p.length ≤ 65535)
    (hpending : s.pending = (encodeAnim p).map .word ++ rest) :
    Sys2Proof.core.run (p.length + 1) s = execAnim p (withPending rest s) := by
  have hlen : (encodeAnim p).length = p.length + 1 := by simp [encodeAnim]
  rw [← hlen, run_words hpending, ← feed_map, map_decode_encodeAnim, feed_exec_expandAnim h]

end Whole

/-! ## The statements -/

/-- Settles O40: a run of the transaction's words is the pseudo-operation `ANIM`, which does nothing
for no bytes, faults at `CH.BEGIN` for too many, and else goes packet by packet to `animState`. -/
theorem animTransactionComputesAnim : Obligations.AnimTransactionComputesAnim := by
  constructor
  · intro p s rest hm hlen hpending
    have hm' : (withPending rest s).mode = .idle := hm
    rw [run_encodeAnim hlen hpending]
    by_cases hfits : p.length ≤ 51200
    · rw [anim_of_fits hfits]
      cases p with
      | nil =>
        rw [execAnim_nil hm']
        exact ⟨_, rfl, rfl, rfl, (List.append_nil _).symm, hm'⟩
      | cons b bs =>
        rw [execAnim_of_fits hm' (by simp) hfits]
        exact ⟨_, rfl, rfl, rfl, rfl, rfl⟩
    · rw [execAnim_of_tooLarge hm' (by omega) hlen, anim_of_tooLarge (by omega)]
      exact ⟨_, rfl, rfl, rfl, rfl, rfl, rfl, rfl⟩
  · intro p hlen
    exact anim_of_tooLarge (by omega)

/-- Settles O41: the state after `j` bytes is `packetState` at packet `j / 200`, byte `j % 200`, whose
registers and output are those of R164. -/
theorem chunkStateAfterBytes : Obligations.ChunkStateAfterBytes := by
  intro p j s hm hj hp
  have hcount : 200 * (j / 200) + j % 200 = j := Nat.div_add_mod j 200
  have hcidx := packetState_cidx_toNat (r := j % 200) (s := s) hp (i := j / 200) (by omega)
  have hcrem := packetState_crem_toNat (i := j / 200) (r := j % 200) (s := s) hp
  have hrun : andThen (execChBegin (BitVec.ofNat 16 p.length) s) (feed execChData (p.take j)) =
      .next (packetState p (j / 200) (j % 200) s) := by
    rw [execChBegin_opens hm (by omega) hp, andThen_next, feed_execChData_take hp hj]
  refine ⟨_, hrun, rfl, packetState_ctotal_toNat hp, by rw [hcrem, hcount], hcidx, ?_, ?_⟩
  · rw [packetState_frem_toNat, hcidx, sliceOf_length]
  · have hout : 210 * (j / 200) + j % 200 + 7 = j + 10 * (j / 200) + 7 := by omega
    rw [packetState, animSoFar_eq_take (by rw [sliceOf_length]; omega), hout]

end Sys2Proof.Proofs

/-! PROOF. Assembling a written line (43_pseudo_ops.md R171): a command word as a number is the sum of
its fields, each in its place, and an operand that fits its field stands there as written. -/

namespace Sys2Proof.Proofs

open Sys2Proof Sys2Proof.Machine

/-! ## A command word as a number (30_encoding.md R70, R71) -/

/-- The upper field counts in units of the lower field's size: the fields do not overlap. -/
theorem append_toNat {hi lo : Nat} (x : BitVec hi) (y : BitVec lo) :
    (x ++ y).toNat = x.toNat * 2 ^ lo + y.toNat := by
  rw [BitVec.toNat_append, ← Nat.shiftLeft_add_eq_or_of_lt y.isLt, Nat.shiftLeft_eq]

theorem wordPkCfg_toNat (v : Variant) (k : Half) :
    (wordPkCfg v k).toNat = 0x10000000 + (variantBit v).toNat * 0x10000 + k.toNat := by
  have hheader : (0x1#4 ++ 0#11 ++ variantBit v).toNat = 0x1000 + (variantBit v).toNat :=
    append_toNat 0x800#15 (variantBit v)
  rw [wordPkCfg, append_toNat, hheader]
  omega

theorem wordPkPush_toNat (i : Half) : (wordPkPush i).toNat = 0x20000000 + i.toNat :=
  append_toNat 0x2000#16 i

theorem wordFrBegin_toNat (c : Byte) (n : Half) :
    (wordFrBegin c n).toNat = 0x40000000 + c.toNat * 0x10000 + n.toNat := by
  have hheader : (0x4#4 ++ 0#4 ++ c).toNat = 0x4000 + c.toNat := append_toNat 0x40#8 c
  rw [wordFrBegin, append_toNat, hheader]
  omega

theorem wordFrData_toNat (b : Byte) : (wordFrData b).toNat = 0x50000000 + b.toNat :=
  append_toNat 0x500000#24 b

theorem wordChBegin_toNat (size : Half) : (wordChBegin size).toNat = 0x60000000 + size.toNat :=
  append_toNat 0x6000#16 size

theorem wordChData_toNat (b : Byte) : (wordChData b).toNat = 0x70000000 + b.toNat :=
  append_toNat 0x700000#24 b

/-! ## An operand that fits its field -/

theorem ofNat8_toNat {b : Nat} (h : b ≤ 255) : (BitVec.ofNat 8 b).toNat = b := by
  simp [Nat.mod_eq_of_lt (Nat.lt_succ_of_le h)]

theorem variantBit_variantOfBit_toNat {v : Nat} (h : v ≤ 1) :
    (variantBit (variantOfBit (v == 1))).toNat = v := by
  obtain rfl | rfl := Nat.le_one_iff_eq_zero_or_eq_one.mp h <;> rfl

/-! ## The statement -/

/-- A line assembled under a check of its operands is refused exactly when the check fails, and what it
gives is the one instruction whose word has been computed. -/
theorem guarded_line_refused_or_word {fits refused : Prop} [Decidable fits] {i : Instr} {w : Word}
    {n : Nat} (hrefused : ¬ fits ↔ refused) (hencode : encode i = [w]) (hsum : fits → w.toNat = n) :
    ((if fits then some i else none) = none ↔ refused) ∧
      ∀ j, (if fits then some i else none) = some j → ∃ w : Word, encode j = [w] ∧ w.toNat = n := by
  by_cases h : fits
  · have hnot : ¬ refused := fun hr => hrefused.mpr hr h
    simp only [if_pos h, hnot, reduceCtorEq, Option.some.injEq, true_and]
    rintro _ rfl
    exact ⟨w, hencode, hsum h⟩
  · simp [if_neg h, hrefused.mp h]

/-- Settles O8: line by line, the check of the operands fails exactly outside their fields, and operands
inside them add up to the number of R171. -/
theorem assembledWordIsSum : Obligations.AssembledWordIsSum := by
  intro l
  cases l with
  | pkCfg v k =>
    refine guarded_line_refused_or_word (by omega) rfl fun ⟨hv, hk⟩ => ?_
    rw [wordPkCfg_toNat, variantBit_variantOfBit_toNat hv, ofNat16_toNat (by omega), assembledNumber]
  | pkPush i =>
    refine guarded_line_refused_or_word Nat.not_le rfl fun hi => ?_
    rw [wordPkPush_toNat, ofNat16_toNat (by omega), assembledNumber]
  | pkEnd =>
    refine ⟨by simp [assemble], ?_⟩
    rintro _ ⟨⟩
    exact ⟨wordPkEnd, rfl, rfl⟩
  | frBegin c n =>
    refine guarded_line_refused_or_word (by omega) rfl fun ⟨hc, hn⟩ => ?_
    rw [wordFrBegin_toNat, ofNat8_toNat hc, ofNat16_toNat (by omega), assembledNumber]
  | frData b =>
    refine guarded_line_refused_or_word Nat.not_le rfl fun hb => ?_
    rw [wordFrData_toNat, ofNat8_toNat hb, assembledNumber]
  | chBegin size =>
    refine guarded_line_refused_or_word Nat.not_le rfl fun hsize => ?_
    rw [wordChBegin_toNat, ofNat16_toNat (by omega), assembledNumber]
  | chData b =>
    refine guarded_line_refused_or_word Nat.not_le rfl fun hb => ?_
    rw [wordChData_toNat, ofNat8_toNat hb, assembledNumber]

end Sys2Proof.Proofs

/-! PROOF. Faults: what a word does in each of the four places of the fixed order of 60_exceptions.md
R217 (ignored, illegal, out of turn, its operands), and, past all of them, the mode of the table of
10_state.md R41. -/

namespace Sys2Proof.Proofs

open Sys2Proof Sys2Proof.Machine

/-! ## Illegal words (60_exceptions.md R212) -/

theorem exec_illegal_raises (w : Word) {s : State} (hs : s.mode ≠ .fault) :
    exec (.illegal w) s = .next (raise .illegalOp w s) :=
  if_neg hs

/-- Settles O47: without a row the word decodes to `illegal`, and that operation is admitted nowhere. -/
theorem illegalWordFaults : Obligations.IllegalWordFaults := by
  intro w s hs
  refine ⟨exec_illegal_raises w hs, fun rest hrow hp => ?_⟩
  rw [step_of_word hp, Laws.decode_of_no_row hrow]
  exact exec_illegal_raises w hs

/-! ## Admission (60_exceptions.md R213, R219) -/

/-- An operation that one mode admits is the template in that mode, with its own word. -/
theorem exec_eq_inMode {i : Instr} {m : Mode} {w : Word} (hm : admittingMode i = some m)
    (hw : encode i = [w]) : m ≠ .fault ∧ ∃ body, ∀ s, exec i s = inMode m w body s := by
  cases i
  case pkCfg | pkPush | pkEnd | frBegin | frData | chBegin | chData =>
    cases hm
    cases hw
    exact ⟨by decide, _, fun _ => rfl⟩
  all_goals cases hm

theorem exec_out_of_turn {i : Instr} {m : Mode} {w : Word} {s : State}
    (hm : admittingMode i = some m) (hw : encode i = [w]) (hother : s.mode ≠ m)
    (hs : s.mode ≠ .fault) : exec i s = .next (raise .sequenceError w s) := by
  obtain ⟨-, body, hexec⟩ := exec_eq_inMode hm hw
  rw [hexec, inMode_other hs hother]

/-- Every operation of the table is admitted in one mode. -/
theorem exists_admittingMode_decode {w : Word} (hencode : encode (decode w) = [w])
    (hlegal : decode w ≠ .illegal w) : ∃ m, admittingMode (decode w) = some m := by
  refine decode_induction
    (motive := fun i => encode i = [w] → i ≠ .illegal w → ∃ m, admittingMode i = some m) w
    ?pkCfg ?pkPush ?pkEnd ?frBegin ?frData ?chBegin ?chData ?illegal hencode hlegal
  case illegal =>
    intro w' hw' hne
    cases hw'
    exact absurd rfl hne
  all_goals
    intros
    exact ⟨_, rfl⟩

/-- The first check: a word has no row and is illegal, or is an operation that some mode admits. -/
theorem decode_illegal_or_admitted (w : Word) :
    (opcodeRows.filter (matchesRow w) = [] ∧ decode w = .illegal w) ∨
    (opcodeRows.filter (matchesRow w) ≠ [] ∧ encode (decode w) = [w] ∧
      ∃ m, admittingMode (decode w) = some m) := by
  obtain ⟨row, hop⟩ | hnone := decode_isRowOperation_or_no_row w
  · exact .inr ⟨fun hnone => hop.legal (Laws.decode_of_no_row hnone), hop.encoded,
      exists_admittingMode_decode hop.encoded hop.legal⟩
  · exact .inl ⟨hnone, Laws.decode_of_no_row hnone⟩

theorem exec_decode_of_fault (w : Word) {s : State} (hs : s.mode = .fault) :
    exec (decode w) s = .next s := by
  obtain ⟨-, hillegal⟩ | ⟨-, hw, m, hm⟩ := decode_illegal_or_admitted w
  · rw [hillegal]
    exact if_pos hs
  · obtain ⟨-, body, hexec⟩ := exec_eq_inMode hm hw
    rw [hexec, inMode_fault hs]

/-! ## Operand checks, each in its operation's own mode (60_exceptions.md R211, R214) -/

/-- Each operand check of the table of R211 that fails is the one that the machine makes. -/
theorem operandFault_pkCfg_eq_some {v : Variant} {k : Half} {s : State} {f : Cause} :
    operandFault s (.pkCfg v k) = some f ↔ widthOf Config.k1Policy v k.toNat = .fault f := by
  simp only [operandFault, widthOf, gt_iff_lt]
  split_ifs <;> simp

theorem operandFault_pkPush_eq_some {i : Half} {s : State} {f : Cause} :
    operandFault s (.pkPush i) = some f ↔ s.psize.toNat ≤ i.toNat ∧ .indexRange = f := by
  simp [operandFault]

theorem operandFault_frBegin_eq_some {c : Byte} {n : Half} {s : State} {f : Cause} :
    operandFault s (.frBegin c n) = some f ↔ 65532 < n.toNat ∧ .frameTooLarge = f := by
  have hbound : n.toNat + 3 > 65535 ↔ 65532 < n.toNat := by omega
  simp [operandFault, hbound]

theorem operandFault_chBegin_eq_some {size : Half} {s : State} {f : Cause} :
    operandFault s (.chBegin size) = some f ↔ 51200 < size.toNat ∧ .payloadTooLarge = f := by
  simp [operandFault]

/-- An operation in its own mode raises the operand fault of the table, in every state. -/
theorem exec_operandFault {i : Instr} {w : Word} {s : State} {f : Cause}
    (hm : admittingMode i = some s.mode) (hw : encode i = [w]) (hf : operandFault s i = some f) :
    exec i s = .next (raise f w s) := by
  have hmode {m : Mode} (h : some m = some s.mode) : s.mode = m := (Option.some.inj h).symm
  cases i
  case pkCfg v k =>
    cases hw
    exact execPkCfg_of_fault (hmode hm) (operandFault_pkCfg_eq_some.mp hf)
  case pkPush i =>
    cases hw
    obtain ⟨hrange, rfl⟩ := operandFault_pkPush_eq_some.mp hf
    exact (execPkPush_of_pack i (hmode hm)).trans (if_pos hrange)
  case frBegin c n =>
    cases hw
    obtain ⟨hlarge, rfl⟩ := operandFault_frBegin_eq_some.mp hf
    exact execFrBegin_of_tooLarge c (hmode hm) hlarge
  case chBegin size =>
    cases hw
    obtain ⟨hlarge, rfl⟩ := operandFault_chBegin_eq_some.mp hf
    exact execChBegin_of_tooLarge (hmode hm) hlarge
  all_goals cases hf

/-! ## Past all checks: the mode of the table (10_state.md R41) -/

/-- `t` follows `s` by the operation `i` without a fault: the mode is the table's, and the fault
registers and the events still to come are as they were. -/
structure Unfaulted (i : Instr) (s t : State) : Prop where
  mode : t.mode = modeAfter s i
  fcause : t.fcause = s.fcause
  fword : t.fword = s.fword
  pending : t.pending = s.pending

section Unfaulted

variable {s : State}

theorem execPkCfg_unfaulted {v : Variant} {k : Half} (hm : s.mode = .idle)
    (hf : operandFault s (.pkCfg v k) = none) :
    ∃ t, execPkCfg v k s = .next t ∧ Unfaulted (.pkCfg v k) s t := by
  cases hw : widthOf Config.k1Policy v k.toNat with
  | fault f => simp [operandFault_pkCfg_eq_some.mpr hw] at hf
  | ok w => exact ⟨_, execPkCfg_of_ok hm hw, rfl, rfl, rfl, rfl⟩

theorem execPkPush_unfaulted {i : Half} (hs : Inv s) (hm : s.mode = .pack)
    (hf : operandFault s (.pkPush i) = none) :
    ∃ t, execPkPush i s = .next t ∧ Unfaulted (.pkPush i) s t := by
  have hrange : ¬ s.psize.toNat ≤ i.toNat := fun h => by
    simp [operandFault_pkPush_eq_some.mpr ⟨h, rfl⟩] at hf
  obtain ⟨hn, ha⟩ := hs.bits
  obtain ⟨-, hw, -⟩ := hs.indexWidth hm
  rw [execPkPush_of_pack i hm, if_neg hrange,
    pushIndex_eq hn ha hw (index_lt_two_pow_width hs hm (by omega))]
  split_ifs <;> exact ⟨_, rfl, hm, rfl, rfl, rfl⟩

theorem execPkEnd_unfaulted (hm : s.mode = .pack) :
    ∃ t, execPkEnd s = .next t ∧ Unfaulted .pkEnd s t := by
  rw [execPkEnd_of_pack hm, emitTail_eq]
  exact ⟨_, rfl, rfl, rfl, rfl, rfl⟩

theorem execFrBegin_unfaulted {c : Byte} {n : Half} (hm : s.mode = .idle)
    (hf : operandFault s (.frBegin c n) = none) :
    ∃ t, execFrBegin c n s = .next t ∧ Unfaulted (.frBegin c n) s t := by
  have hfits : ¬ 65532 < n.toNat := fun h => by
    simp [operandFault_frBegin_eq_some.mpr ⟨h, rfl⟩] at hf
  refine ⟨_, execFrBegin_of_fits c hm (by omega), ?_, rfl, rfl, rfl⟩
  by_cases h0 : n.toNat = 0
  · simp [frameState, modeAfter, h0]
  · simp [frameState, modeAfter, h0, Nat.pos_of_ne_zero h0]

theorem execFrData_unfaulted (b : Byte) (hs : Inv s) (hm : s.mode = .frame) :
    ∃ t, execFrData b s = .next t ∧ Unfaulted (.frData b) s t := by
  obtain ⟨hfrem, -⟩ := hs.openFrame hm
  rw [execFrData, inMode_own (by decide) hm, takeArgument_eq b s hfrem]
  refine ⟨_, rfl, ?_, rfl, rfl, rfl⟩
  by_cases h1 : s.frem.toNat = 1
  · simp [modeAfter, h1]
  · have hmore : 1 < s.frem.toNat := by omega
    simp [modeAfter, h1, hmore, hm]

theorem execChBegin_unfaulted {size : Half} (hm : s.mode = .idle)
    (hf : operandFault s (.chBegin size) = none) :
    ∃ t, execChBegin size s = .next t ∧ Unfaulted (.chBegin size) s t := by
  have hfits : ¬ payloadTooLarge size = true := fun h => by
    simp [operandFault_chBegin_eq_some.mpr ⟨(payloadTooLarge_iff size).mp h, rfl⟩] at hf
  by_cases h0 : size = 0
  · subst h0
    exact ⟨s, execChBegin_empty hm, hm, rfl, rfl, rfl⟩
  · have hpos : 1 ≤ size.toNat := Nat.pos_of_ne_zero fun h => h0 (BitVec.eq_of_toNat_eq h)
    rw [execChBegin, inMode_own (by decide) hm, if_neg hfits, if_neg h0, openChunks,
      chunkOpen_eq _ hpos]
    exact ⟨_, rfl, (if_pos hpos).symm, rfl, rfl, rfl⟩

/-- A packet with bytes missing goes on; the payload's last byte is its packet's last; and the index
does not run out while payload is missing. -/
theorem execChData_unfaulted (b : Byte) (hs : Inv s) (hm : s.mode = .chunk) :
    ∃ t, execChData b s = .next t ∧ Unfaulted (.chData b) s t := by
  obtain ⟨hrem, hle, htotal, hfrem, -, hindex, hmissing⟩ := packetCounts_of_inv hs hm
  rw [execChData, inMode_own (by decide) hm]
  by_cases hlast : s.crem.toNat = 1
  · rw [takePayloadByte_last b s (by omega) hlast]
    exact ⟨_, rfl, (if_neg (by omega)).symm, rfl, rfl, rfl⟩
  · have hmode : s.mode = modeAfter s (.chData b) := hm.trans (if_pos (by omega)).symm
    by_cases hinside : 2 ≤ s.frem.toNat
    · exact ⟨_, takePayloadByte_inside b s hinside hrem, hmode, rfl, rfl, rfl⟩
    · exact ⟨_, takePayloadByte_next b s (by omega) (by omega) (by omega), hmode, rfl, rfl, rfl⟩

/-- An operation in its own mode whose operands pass their check takes effect. -/
theorem exec_unfaulted {i : Instr} (hs : Inv s) (hm : admittingMode i = some s.mode)
    (hf : operandFault s i = none) : ∃ t, exec i s = .next t ∧ Unfaulted i s t := by
  have hmode {m : Mode} (h : some m = some s.mode) : s.mode = m := (Option.some.inj h).symm
  cases i
  case pkCfg v k => exact execPkCfg_unfaulted (hmode hm) hf
  case pkPush i => exact execPkPush_unfaulted hs (hmode hm) hf
  case pkEnd => exact execPkEnd_unfaulted (hmode hm)
  case frBegin c n => exact execFrBegin_unfaulted (hmode hm) hf
  case frData b => exact execFrData_unfaulted b hs (hmode hm)
  case chBegin size => exact execChBegin_unfaulted (hmode hm) hf
  case chData b => exact execChData_unfaulted b hs (hmode hm)
  all_goals cases hm

end Unfaulted

/-! ## The fixed order (60_exceptions.md R217) -/

section Order

variable {w : Word} {s : State}

/-- Outside `FAULT` three checks can fail, in their order: the word, the mode, the operands. -/
theorem faultOf_eq_some {f : Cause} (h : faultOf w s = some f) :
    s.mode ≠ .fault ∧
    (decode w = .illegal w ∧ f = .illegalOp ∨
      encode (decode w) = [w] ∧
        ((∃ m, admittingMode (decode w) = some m ∧ s.mode ≠ m) ∧ f = .sequenceError ∨
          admittingMode (decode w) = some s.mode ∧ operandFault s (decode w) = some f)) := by
  by_cases hs : s.mode = .fault
  · simp [faultOf, hs] at h
  refine ⟨hs, ?_⟩
  rw [faultOf, if_neg hs] at h
  obtain ⟨hnone, hillegal⟩ | ⟨hrow, hw, m, hm⟩ := decode_illegal_or_admitted w
  · rw [if_pos (List.length_eq_zero_iff.mpr hnone)] at h
    exact .inl ⟨hillegal, (Option.some.inj h).symm⟩
  · rw [if_neg (mt List.length_eq_zero_iff.mp hrow)] at h
    refine .inr ⟨hw, ?_⟩
    split_ifs at h with hturn
    · exact .inl ⟨⟨m, hm, fun he => hturn (he ▸ hm)⟩, (Option.some.inj h).symm⟩
    · exact .inr ⟨not_not.mp hturn, h⟩

theorem faultOf_eq_none (hs : s.mode ≠ .fault) (h : faultOf w s = none) :
    admittingMode (decode w) = some s.mode ∧ operandFault s (decode w) = none := by
  rw [faultOf, if_neg hs] at h
  split_ifs at h with hrow hturn
  exact ⟨not_not.mp hturn, h⟩

/-- The fault of the fixed order is taken, and taking it is all that happens (R218), in every state. -/
theorem exec_decode_of_faultOf_eq_some {f : Cause} (h : faultOf w s = some f) :
    exec (decode w) s = .next (raise f w s) := by
  obtain ⟨hs, ⟨hillegal, rfl⟩ | ⟨hw, ⟨⟨m, hm, hother⟩, rfl⟩ | ⟨hm, hf⟩⟩⟩ := faultOf_eq_some h
  · rw [hillegal]
    exact exec_illegal_raises w hs
  · exact exec_out_of_turn hm hw hother hs
  · exact exec_operandFault hm hw hf

theorem exec_decode_of_faultOf_eq_none (hinv : Inv s) (hs : s.mode ≠ .fault)
    (h : faultOf w s = none) : ∃ t, exec (decode w) s = .next t ∧ Unfaulted (decode w) s t := by
  obtain ⟨hm, hf⟩ := faultOf_eq_none hs h
  exact exec_unfaulted hinv hm hf

/-- Neither the checks nor the table look at the events still to come. -/
theorem faultOf_withPending (rest : List Input) : faultOf w (withPending rest s) = faultOf w s := rfl

theorem modeAfter_withPending (rest : List Input) (i : Instr) :
    modeAfter (withPending rest s) i = modeAfter s i := rfl

end Order

/-- Settles O49: the word is executed in the state without its event, where the fixed order gives the
same fault. -/
theorem stepTakesFirstFault : Obligations.StepTakesFirstFault := by
  intro s w rest hinv hp
  have hstep : step s = exec (decode w) (withPending rest s) := step_of_word hp
  rw [hstep]
  by_cases hs : s.mode = .fault
  · exact ⟨_, exec_decode_of_fault w hs, fun _ => rfl, fun hne => absurd hs hne⟩
  · cases hf : faultOf w s with
    | some f =>
      have hexec := exec_decode_of_faultOf_eq_some ((faultOf_withPending rest).trans hf)
      exact ⟨_, hexec, fun he => absurd he hs, fun _ => rfl⟩
    | none =>
      obtain ⟨t, hexec, ht⟩ := exec_decode_of_faultOf_eq_none (inv_withPending hinv rest) hs
        ((faultOf_withPending rest).trans hf)
      have hmode := ht.mode.trans (modeAfter_withPending rest (decode w))
      exact ⟨t, hexec, fun he => absurd he hs, fun _ => ⟨hmode, ht.fcause, ht.fword, ht.pending⟩⟩

end Sys2Proof.Proofs

/-! PROOF. The reset event: what it writes, and that `FAULT` has no other way out
(70_reset_and_hazards.md R240). -/

namespace Sys2Proof.Proofs

open Sys2Proof Sys2Proof.Machine

/-- `FAULT` outlasts a step that takes no reset event: the block waits, or ignores the word it takes
(60_exceptions.md R219). -/
theorem step_keeps_fault {s t : State} (hs : s.mode = .fault)
    (hreset : ∀ rest, s.pending ≠ .reset :: rest) (ht : step s = .next t) : t.mode = .fault := by
  match hp : s.pending with
  | [] =>
    cases (step_of_no_input hp).symm.trans ht
    exact hs
  | .reset :: rest => exact absurd hp (hreset rest)
  | .word w :: rest =>
    have hignored : step s = .next (withPending rest s) :=
      (step_of_word hp).trans (exec_decode_of_fault w hs)
    cases hignored.symm.trans ht
    exact hs

/-- Settles O2: the first clause is the step on a reset event, the second the contrapositive of
`step_keeps_fault`. -/
theorem resetEventAloneLeavesFault : Obligations.ResetEventAloneLeavesFault := by
  refine ⟨fun s rest hp => step_of_reset hp, fun s t hs ht hleft => ?_⟩
  by_contra hreset
  exact hleft (step_keeps_fault hs (not_exists.mp hreset) ht)

end Sys2Proof.Proofs

/-! PROOF. An instruction and its command words: the words decode to the expansion, and the instruction
taken as one is the run of its words (43_pseudo_ops.md R171 to R179). -/

namespace Sys2Proof.Proofs

open Sys2Proof Sys2Proof.Machine

/-! ## Words to operations (30_encoding.md R71 to R75) -/

theorem illegal_wellFormed_iff (w : Word) :
    (Instr.illegal w).wellFormed = true ↔ opcodeRows.filter (matchesRow w) = [] := by
  simp [Instr.wellFormed, List.filter_eq_nil_iff]

/-- Settles O5: word by word, an operation's own word, and for a pseudo-operation the words of its
frame or of its animation. -/
theorem decodeOfEncodeIsExpansion : Obligations.DecodeOfEncodeIsExpansion := by
  intro i hi
  cases i with
  | pkCfg v k => exact congrArg ([·]) (decode_wordPkCfg v k)
  | pkPush i => exact congrArg ([·]) (decode_wordPkPush i)
  | pkEnd => exact congrArg ([·]) decode_wordPkEnd
  | frBegin c n => exact congrArg ([·]) (decode_wordFrBegin c n)
  | frData b => exact congrArg ([·]) (decode_wordFrData b)
  | chBegin size => exact congrArg ([·]) (decode_wordChBegin size)
  | chData b => exact congrArg ([·]) (decode_wordChData b)
  | illegal w => exact congrArg ([·]) (Laws.decode_of_no_row ((illegal_wellFormed_iff w).mp hi))
  | wireFrame c args => exact map_decode_encodeFrame c args
  | wirePacket size index slice => exact map_decode_encodeFrame _ (packetArgs size index slice)
  | setBrightness level => exact map_decode_encodeFrame _ [level]
  | setBoxMode mode visual submode => exact map_decode_encodeFrame _ [mode, visual, submode]
  | setRgb r g b => exact map_decode_encodeFrame _ [r, g, b]
  | drawPicture subFrame => exact map_decode_encodeFrame _ (Config.picLead ++ subFrame)
  | anim payload => exact map_decode_encodeAnim payload

/-- What one mode admits is one of the seven operations. -/
theorem operation_of_admitted {i : Instr} {m : Mode} (h : admittingMode i = some m) :
    i.isOperation = true ∧ i.wellFormed = true := by
  cases i
  case pkCfg | pkPush | pkEnd | frBegin | frData | chBegin | chData => exact ⟨rfl, rfl⟩
  all_goals cases h

/-- Settles O6: a word without a row is its own illegal word, and any other is encoded by the operation
of its row. -/
theorem encodeOfDecodeIsWord : Obligations.EncodeOfDecodeIsWord := by
  intro w
  obtain ⟨hnone, hillegal⟩ | ⟨-, hencode, m, hm⟩ := decode_illegal_or_admitted w
  · rw [hillegal]
    exact ⟨rfl, rfl, (illegal_wellFormed_iff w).mpr hnone⟩
  · exact ⟨hencode, operation_of_admitted hm⟩

/-! ## The instruction is the run of its words (43_pseudo_ops.md R173, R174) -/

theorem feed_singleton {α : Type} (op : α → State → Out) (x : α) (s : State) :
    feed op [x] s = op x s := by
  rw [feed_cons]
  cases op x s <;> rfl

/-- A packet carries at most 200 bytes of the payload (30_encoding.md R86). -/
theorem slice_length_le_of_packetFits {size : Half} {index : Byte} {slice : List Byte}
    (h : packetFits size index slice = true) : slice.length ≤ 200 := by
  simp only [packetFits, Config.chunkMax, Bool.and_eq_true, beq_iff_eq] at h
  omega

/-- The operations of a well-formed instruction's expansion, one after the other. -/
theorem feed_exec_expand {i : Instr} (hi : i.wellFormed = true) (s : State) :
    feed exec (expand i) s = exec i s := by
  cases i
  case wireFrame c args => exact feed_exec_expandFrame c (of_decide_eq_true hi) s
  case wirePacket size index slice =>
    have hslice : slice.length ≤ 200 := slice_length_le_of_packetFits hi
    have hargs : (packetArgs size index slice).length = slice.length + 3 := rfl
    exact feed_exec_expandFrame _ (by omega) s
  case setBrightness level => exact feed_exec_expandFrame _ (by simp) s
  case setBoxMode mode visual submode => exact feed_exec_expandFrame _ (by simp) s
  case setRgb r g b => exact feed_exec_expandFrame _ (by simp) s
  case drawPicture subFrame =>
    have hlen : subFrame.length + 4 ≤ 65535 := of_decide_eq_true hi
    have hargs : (Config.picLead ++ subFrame).length = subFrame.length + 4 := rfl
    exact feed_exec_expandFrame _ (by omega) s
  case anim payload => exact feed_exec_expandAnim (of_decide_eq_true hi) s
  all_goals exact feed_singleton exec _ s

/-- A well-formed instruction is what its words do, one after the other. -/
theorem feed_words {i : Instr} (hi : i.wellFormed = true) (s : State) :
    feed (fun w => exec (decode w)) (encode i) s = exec i s := by
  rw [← feed_map exec decode, decodeOfEncodeIsExpansion i hi, feed_exec_expand hi]

/-- Settles O37: one step a word, the words do what the instruction does. -/
theorem instructionIsRunOfItsWords : Obligations.InstructionIsRunOfItsWords := by
  intro i s t rest hi ht
  exact (run_words rfl).trans ((feed_words hi _).trans ht)

/-! ## Instructions that are not admitted (60_exceptions.md R213, R219) -/

/-- Settles O48: a word is ignored in `FAULT`, and an instruction is the run of its words. -/
theorem faultModeIgnoresWords : Obligations.FaultModeIgnoresWords := by
  refine ⟨fun s w rest hs hp => (step_of_word hp).trans (exec_decode_of_fault w hs),
    fun s i hs hi => ?_⟩
  rw [← feed_words hi, feed_of_fault (fun w _ => exec_decode_of_fault w) _ hs]

/-- The first operation of a pseudo-operation opens a transaction, which only `IDLE` admits. -/
theorem admittingMode_expand_head {i j : Instr} {js : List Instr} (hi : i.isOperation = false)
    (h : expand i = j :: js) : admittingMode j = some .idle := by
  cases i
  case wireFrame | wirePacket | setBrightness | setBoxMode | setRgb | drawPicture | anim =>
    cases h
    rfl
  all_goals cases hi

/-- Settles O45: the first word takes the fault, and the words after it find the block in `FAULT`. -/
theorem operationOutOfTurnFaults : Obligations.OperationOutOfTurnFaults := by
  refine ⟨fun i m w s hm hw hother hs => exec_out_of_turn hm hw hother hs,
    fun i w ws s hop hi hwords hidle hs => ?_⟩
  have hexpand : expand i = decode w :: ws.map decode := by
    rw [← decodeOfEncodeIsExpansion i hi, hwords, List.map_cons]
  obtain ⟨hw, -⟩ := encodeOfDecodeIsWord w
  rw [← feed_words hi, hwords, feed_cons,
    exec_out_of_turn (admittingMode_expand_head hop hexpand) hw hidle hs, andThen_next]
  exact feed_of_fault (fun w _ => exec_decode_of_fault w) ws (raise_mode _ _ _)

end Sys2Proof.Proofs

/-! PROOF. The operations one at a time, their effects written out field by field. -/

namespace Sys2Proof.Proofs

open Sys2Proof Sys2Proof.Machine

/-! ## Registers and their numbers -/

theorem toNat_pos_of_ne_zero {n : Nat} {x : BitVec n} (h : ¬ x = 0) : 1 ≤ x.toNat :=
  Nat.pos_of_ne_zero fun h0 => h (BitVec.eq_of_toNat_eq (h0.trans BitVec.toNat_zero.symm))

theorem ofNat_eq_of_toNat_eq {n k : Nat} {x : BitVec n} (h : x.toNat = k) : BitVec.ofNat n k = x := by
  rw [← h, BitVec.ofNat_toNat, BitVec.setWidth_eq]

theorem ofNat16_mod (x : Nat) : BitVec.ofNat 16 (x % 65536) = BitVec.ofNat 16 x := ofNat16_mod_add x 0

/-! ## The step, the written words and the codes -/

/-- Settles O3: the step on a word, and the step on no event. -/
theorem stepRunsDecodedWord : Obligations.StepRunsDecodedWord :=
  ⟨fun _ _ _ hp => step_of_word hp, fun _ hp => step_of_no_input hp⟩

/-- Settles O4: each written word is the encoding of its operation, and the last has a reserved bit
set. -/
theorem specWordsDecodeAsWritten : Obligations.SpecWordsDecodeAsWritten :=
  ⟨decode_wordPkCfg .max 4, decode_wordPkPush 3, decode_wordPkEnd, decode_wordFrBegin 0x74 1,
    decode_wordFrData 0x32, decode_wordChBegin 450, decode_wordChData 0xAA,
    Laws.decode_of_no_row (by decide)⟩

/-- Settles O51: the codes are read off the tables of R22 and R211, and `raise` writes all that
`STATUS` shows. -/
theorem statusShowsFault : Obligations.StatusShowsFault :=
  ⟨rfl, rfl, fun _ _ _ => rfl⟩

/-! ## The Bit-Packer (40_packer.md R103 to R113) -/

/-- From two colours up to the variant's maximum both policies accept the palette. -/
theorem widthOf_of_two_le (policy : K1Policy) {v : Variant} {k : Nat} (hk : 2 ≤ k)
    (hmax : k ≤ Config.maxPal v) : widthOf policy v k = .ok (clog2 k) := by
  have h0 : ¬ k = 0 := by omega
  have h1 : ¬ k = 1 := by omega
  simp [widthOf, h0, h1, Nat.not_lt.mpr hmax]

theorem widthOf_zero (policy : K1Policy) (v : Variant) : widthOf policy v 0 = .fault .paletteEmpty :=
  if_pos rfl

theorem widthOf_of_maxPal_lt (policy : K1Policy) {v : Variant} {k : Nat} (h : Config.maxPal v < k) :
    widthOf policy v k = .fault .paletteOverflow := by
  have h0 : ¬ k = 0 := by omega
  rw [widthOf, if_neg h0, if_pos h]

theorem widthOf_one (policy : K1Policy) (v : Variant) :
    widthOf policy v 1 = if policy = .reject then .fault .singleColor else .ok 1 := by
  have hmax : ¬ Config.maxPal v < 1 := by cases v <;> decide
  simp [widthOf, hmax]

/-- Settles O12: two colours or more are accepted under either policy. -/
theorem pkCfgOpensPacking : Obligations.PkCfgOpensPacking := by
  intro v k s hm hk hmax
  refine (execPkCfg_of_ok hm (widthOf_of_two_le _ hk (by cases v <;> exact hmax))).trans ?_
  simp [packState, Image.bytesSoFar, wholeBytes]

/-- Settles O13: each check of R104 that fails is the fault taken, and one colour goes by the policy. -/
theorem pkCfgPaletteFaults : Obligations.PkCfgPaletteFaults := by
  intro v k s hm
  refine ⟨fun h0 => ?_, fun hmax => ?_, fun h1 => ?_⟩
  · exact execPkCfg_of_fault hm (h0.symm ▸ widthOf_zero _ v)
  · exact execPkCfg_of_fault hm (widthOf_of_maxPal_lt _ (by cases v <;> exact hmax))
  · have hw : widthOf Config.k1Policy v k.toNat = _ := h1 ▸ widthOf_one Config.k1Policy v
    by_cases hp : Config.k1Policy = .reject
    · rw [if_pos hp] at hw ⊢
      exact execPkCfg_of_fault hm hw
    · rw [if_neg hp] at hw ⊢
      refine (execPkCfg_of_ok hm hw).trans ?_
      simp [packState, Image.bytesSoFar, wholeBytes, h1]

/-- Settles O15: within the bounds of R42 the result fits the registers, so nothing stops. -/
theorem pkPushStoresIndex : Obligations.PkPushStoresIndex := by
  intro i s hs hm hi
  obtain ⟨hn, ha⟩ := hs.bits
  obtain ⟨-, hw, -⟩ := hs.indexWidth hm
  calc exec (.pkPush i) s
      = pushIndex i.toNat s := (execPkPush_of_pack i hm).trans (if_neg (by omega))
    _ = _ := pushIndex_eq hn ha hw (index_lt_two_pow_width hs hm hi)

/-- Settles O16: the check comes before the index is stored. -/
theorem pkPushRefusesIndexOutOfRange : Obligations.PkPushRefusesIndexOutOfRange :=
  fun i _ hm hi => (execPkPush_of_pack i hm).trans (if_pos hi)

/-- Settles O17: `emitTail` is the tail policy, and the registers are cleared after it. -/
theorem pkEndAppliesTailPolicy : Obligations.PkEndAppliesTailPolicy := by
  intro s hm
  refine (execPkEnd_of_pack hm).trans ?_
  rw [emitTail_eq]

/-! ## The Command Framer (41_framer.md R132, R137, R138) -/

/-- The sum over the length bytes and the command byte: an accepted count has no third byte. -/
theorem frameSum_nil (c : Byte) {n : Nat} (hn : n ≤ 65532) :
    frameSum c n [] = (n + 3) % 256 + (n + 3) / 256 + c.toNat := by
  rw [frameSum, byteSum_le16, byteSum_nil, Nat.mod_eq_of_lt (a := (n + 3) / 256) (by omega)]
  rfl

/-- Settles O24: `FR.BEGIN` leaves the state of a frame with no argument given, which is the whole frame
when none is announced. -/
theorem frBeginOpensFrame : Obligations.FrBeginOpensFrame := by
  intro c n s hm hn
  have hsum := frameSum_nil c hn
  have hsmall : frameSum c n.toNat [] % 65536 = frameSum c n.toNat [] := by
    have hc := c.isLt
    omega
  rw [hsum] at hsmall
  refine (execFrBegin_of_fits c hm hn).trans ?_
  simp only [frameState, hsum, hsmall, List.length_nil, Nat.sub_zero, List.append_nil,
    BitVec.ofNat_toNat, BitVec.setWidth_eq]
  rfl

/-- Settles O25: the count is checked before any byte. -/
theorem countAboveLimitFaults : Obligations.CountAboveLimitFaults :=
  ⟨fun c _ _ hm hn => execFrBegin_of_tooLarge c hm hn,
    fun _ _ hm hsize => execChBegin_of_tooLarge hm hsize⟩

/-- Settles O26: `takeArgument`, whose trailer comes with the last byte. -/
theorem frDataPassesByte : Obligations.FrDataPassesByte := by
  intro b s hm hfrem
  have hlast : s.frem.toNat - 1 = 0 ↔ s.frem.toNat = 1 := by omega
  have hcsum := (ofNat16_mod (s.csum.toNat + b.toNat)).symm
  calc exec (.frData b) s
      = takeArgument b s := inMode_own (by decide) hm
    _ = _ := by
        rw [takeArgument_eq b s hfrem, hcsum, hm]
        simp only [closing, hlast]
        rfl

/-! ## The Chunker (42_chunker.md R158, R159) -/

/-- A packet's frame has 7 to 206 bytes to count, so its high length byte is zero. -/
theorem packetHeader_eq {m : Nat} (hm : m ≤ 200) :
    frameHeader Config.cmdAnim (m + 3) = [0x01, BitVec.ofNat 8 (m + 6), 0x00, 0x49] := by
  have hhi : (m + 6) / 256 = 0 := by omega
  have hhi8 : hi8 (m + 6) = 0x00 := congrArg (BitVec.ofNat 8) hhi
  exact congrArg (fun b : Byte => [0x01, BitVec.ofNat 8 (m + 6), b, 0x49]) hhi8

theorem byteSum_packetLength {m : Nat} (hm : m ≤ 200) : byteSum (le16 (m + 6)) = m + 6 := by
  rw [byteSum_le16]
  omega

/-- Settles O38: no bytes change nothing, and any other accepted size opens packet 0. -/
theorem chBeginOpensFirstPacket : Obligations.ChBeginOpensFirstPacket := by
  intro size s hm hfits
  by_cases h0 : size.toNat = 0
  · obtain rfl : size = 0 := BitVec.eq_of_toNat_eq h0
    exact execChBegin_empty hm
  · have hne : ¬ size = 0 := fun h => h0 (congrArg BitVec.toNat h)
    have hlarge : ¬ payloadTooLarge size = true := by
      rw [payloadTooLarge_iff]
      omega
    have hlead : packetLead size.toNat (0 : BitVec 8).toNat =
      [BitVec.ofNat 8 size.toNat, BitVec.ofNat 8 (size.toNat / 256), 0x00] := rfl
    have hm200 : min 200 size.toNat ≤ 200 := Nat.min_le_left _ _
    have hcount : 1 ≤ size.toNat := Nat.pos_of_ne_zero h0
    calc exec (.chBegin size) s
        = .next (openChunks size s) := by
          change execChBegin size s = _
          rw [execChBegin, inMode_own (by decide) hm, if_neg hlarge, if_neg hne]
      _ = _ := by
          rw [openChunks, chunkOpen_eq _ hcount]
          simp only [hlead, packetHeader_eq hm200, byteSum_packetLength hm200, if_neg h0]

/-- Settles O39: the counters of R42 say which of the three continuations of `takePayloadByte` is
taken. -/
theorem chDataPassesByte : Obligations.ChDataPassesByte := by
  intro b s hs hm
  obtain ⟨hrem, hle, htotal, hfrem, -, hindex, hmissing⟩ := packetCounts_of_inv hs hm
  have hcsum := (ofNat16_mod (s.csum.toNat + b.toNat)).symm
  refine (show exec (.chData b) s = takePayloadByte b s from inMode_own (by decide) hm).trans ?_
  by_cases hinside : 2 ≤ s.frem.toNat
  · rw [takePayloadByte_inside b s hinside hrem, hcsum]
    exact congrArg Host.Outcome.next (if_pos hinside).symm
  · by_cases hlast : s.crem.toNat = 1
    · rw [takePayloadByte_last b s (by omega) hlast, hcsum]
      exact congrArg Host.Outcome.next ((if_neg hinside).trans (if_pos hlast)).symm
    · have hm200 : min 200 (s.crem.toNat - 1) ≤ 200 := Nat.min_le_left _ _
      rw [takePayloadByte_next b s (by omega) (by omega) (by omega), packetHeader_eq hm200,
        byteSum_packetLength hm200]
      exact congrArg Host.Outcome.next ((if_neg hinside).trans (if_neg hlast)).symm

/-! ## Numbers that no register holds (00_scope.md R11, log entry 4) -/

/-- A payload byte where a count is zero, or where another packet would follow packet 255. -/
theorem takePayloadByte_stops (b : Byte) {s : State}
    (h : s.frem = 0 ∨ s.crem = 0 ∨ (s.frem = 1 ∧ s.crem.toNat ≠ 1 ∧ s.cidx = 255)) :
    takePayloadByte b s = .fault .registerRange := by
  by_cases hzero : s.frem = 0 ∨ s.crem = 0
  · exact if_pos hzero
  · obtain ⟨hfrem, hcrem, hcidx⟩ := (or_assoc.mpr h).resolve_left hzero
    obtain ⟨hfrem0, hcrem0⟩ := not_or.mp hzero
    have hfrem1 : s.frem.toNat = 1 := congrArg BitVec.toNat hfrem
    have hcidx255 : s.cidx.toNat = 255 := congrArg BitVec.toNat hcidx
    obtain ⟨h2, -⟩ | ⟨-, h1, -⟩ | ⟨-, -, -, he⟩ | ⟨-, -, hne, -⟩ :=
      takePayloadByte_cases b s (toNat_pos_of_ne_zero hfrem0) (toNat_pos_of_ne_zero hcrem0)
    · omega
    · exact absurd h1 hcrem
    · exact he
    · exact absurd hcidx255 hne

/-- Settles O46: each stop is the first branch of its procedure, or the last packet index. -/
theorem numbersOutsideRegistersStop : Obligations.NumbersOutsideRegistersStop := by
  refine ⟨fun i s hm hi hrange => ?_, fun b s hm hfrem => ?_, fun b s hm h => ?_⟩
  · exact (execPkPush_of_pack i hm).trans ((if_neg (by omega)).trans (if_pos hrange.symm))
  · exact (inMode_own (by decide) hm).trans (if_pos hfrem)
  · exact (inMode_own (by decide) hm).trans (takePayloadByte_stops b h)

end Sys2Proof.Proofs

/-! PROOF. The function `PACK`: the length of its bytes, what they are for one colour, and that
unpacking them gives the indices back (40_packer.md R103 to R119). -/

namespace Sys2Proof.Proofs

open Sys2Proof Sys2Proof.Machine

/-! ## Widths and lengths (00_scope.md R14, 40_packer.md R107) -/

/-- Settles O14: the model's search finds the library's logarithm. -/
theorem clogIsSmallestExponent : Obligations.ClogIsSmallestExponent := by
  intro k _
  rw [clog2_eq_clog]
  exact ⟨Nat.le_pow_clog Nat.one_lt_two k, fun b => Nat.clog_le_of_le_pow⟩

@[simp] theorem wholeBytes_length (t b : Nat) : (wholeBytes t b).length = t / 8 := by
  rw [wholeBytes, List.length_map, List.length_range]

/-- The whole bytes, and for Max one more where bits are left over. -/
theorem packBytes_length (v : Variant) (w : Nat) (idx : List Nat) :
    (packBytes v w idx).length = match v with
      | .classic => idx.length * w / 8
      | .max => (idx.length * w + 7) / 8 := by
  rw [packBytes, List.length_append, wholeBytes_length]
  cases v with
  | classic => rfl
  | max =>
    simp only [tailBytes]
    split_ifs with htail
    · rw [List.length_nil]
      omega
    · rw [List.length_singleton]
      omega

/-- `PACK` answers bytes only for indices below the palette size, and these are its bytes. -/
theorem pack_eq_ok {policy : K1Policy} {v : Variant} {k w : Nat} {idx : List Nat}
    {bytes : List Byte} (hw : widthOf policy v k = .ok w) (h : pack policy v k idx = .ok bytes) :
    (∀ i ∈ idx, i < k) ∧ bytes = packBytes v w idx := by
  rw [pack, hw] at h
  simp only at h
  split_ifs at h with hrange
  cases h
  exact ⟨fun i hi => Nat.lt_of_not_le fun hle => hrange ⟨i, hi, hle⟩, rfl⟩

theorem pack_of_ok {policy : K1Policy} {v : Variant} {k w : Nat} {idx : List Nat}
    (hw : widthOf policy v k = .ok w) (h : ∀ i ∈ idx, i < k) :
    pack policy v k idx = .ok (packBytes v w idx) := by
  rw [pack, hw]
  exact if_neg fun ⟨i, hi, hle⟩ => Nat.not_le.mpr (h i hi) hle

/-- Settles O20: the length of `packBytes`, and both grids are a multiple of 8. -/
theorem packOutputLength : Obligations.PackOutputLength := by
  refine ⟨fun policy v k w idx bytes hw h => ?_, fun v w hw hw' => ?_⟩
  · obtain ⟨-, rfl⟩ := pack_eq_ok hw h
    exact packBytes_length v w idx
  · cases v <;> simp only [Config.grid] <;> omega

/-! ## Longer streams (40_packer.md R116) -/

/-- More bits, more whole bytes: those of the first `t` bits come first. -/
theorem wholeBytes_prefix {t t' : Nat} (h : t ≤ t') (b : Nat) : wholeBytes t b <+: wholeBytes t' b := by
  obtain ⟨d, hd⟩ := Nat.exists_eq_add_of_le (Nat.div_le_div_right (c := 8) h)
  rw [wholeBytes, wholeBytes, hd, List.range_add, List.map_append]
  exact List.prefix_append _ _

/-- Settles O22: later indices stand above the earlier ones, out of their whole bytes. -/
theorem wholeBytesGrowWithIndices : Obligations.WholeBytesGrowWithIndices := by
  intro w xs ys _
  rw [bitString_append, ← wholeBytes_add (xs.length * w) (bitString w xs) (bitString w ys)]
  exact wholeBytes_prefix (Nat.mul_le_mul_right w (by simp)) _

/-! ## One colour (40_packer.md R103) -/

theorem wholeBytes_zero (t : Nat) : wholeBytes t 0 = List.replicate (t / 8) 0 := by
  simp [wholeBytes]

theorem tailBytes_zero (v : Variant) (t : Nat) :
    tailBytes v t 0 = List.replicate (tailBytes v t 0).length 0 := by
  cases v with
  | classic => rfl
  | max =>
    simp only [tailBytes, Nat.zero_div]
    split_ifs <;> rfl

theorem bitString_of_zeros (w : Nat) {idx : List Nat} (h : ∀ i ∈ idx, i = 0) :
    bitString w idx = 0 := by
  induction idx with
  | nil => rfl
  | cons x xs ih =>
    obtain ⟨rfl, hxs⟩ := List.forall_mem_cons.mp h
    rw [bitString_cons, ih hxs, Nat.mul_zero]

/-- Indices that are all zero give zero bytes, as many as any others. -/
theorem packBytes_of_zeros (v : Variant) (w : Nat) {idx : List Nat} (h : ∀ i ∈ idx, i = 0) :
    packBytes v w idx = List.replicate (packBytes v w idx).length 0 := by
  rw [packBytes, bitString_of_zeros w h, List.length_append, List.replicate_add, ← tailBytes_zero,
    wholeBytes_length, ← wholeBytes_zero]

/-- Settles O23: rejection comes before the indices; with width 1 the only index in range is zero. -/
theorem singleColorPolicies : Obligations.SingleColorPolicies := by
  intro v idx
  have hw : widthOf .minWidth1 v 1 = .ok 1 := widthOf_one .minWidth1 v
  refine ⟨pack_of_width_fault (widthOf_one .reject v) idx, fun hzero => ?_, fun ⟨i, hi, hne⟩ => ?_⟩
  · have hlt : ∀ i ∈ idx, i < 1 := fun i hi => Nat.lt_one_iff.mpr (hzero i hi)
    have hlength := packBytes_length v 1 idx
    rw [Nat.mul_one] at hlength
    rw [pack_of_ok hw hlt, packBytes_of_zeros v 1 hzero]
    exact congrArg (fun n => Result.ok (List.replicate n 0)) hlength
  · exact pack_of_indexRange hw ⟨i, hi, Nat.one_le_iff_ne_zero.mpr hne⟩

/-! ## Unpacking (40_packer.md R115) -/

/-- The whole bytes hold the bits below them. -/
theorem bitString_wholeBytes (t b : Nat) :
    bitString 8 ((wholeBytes t b).map BitVec.toNat) = b % 2 ^ (8 * (t / 8)) := by
  rw [wholeBytes]
  induction t / 8 with
  | zero => simp [Nat.mod_one]
  | succ n ih =>
    rw [List.range_succ, List.map_append, List.map_append, bitString_append, ih, List.length_map,
      List.length_map, List.length_range, Nat.mul_comm n 8]
    have hbyte : bitString 8 (([n].map fun m => BitVec.ofNat 8 (b / 2 ^ (8 * m))).map BitVec.toNat) =
        b / 2 ^ (8 * n) % 2 ^ 8 := by simp
    rw [hbyte, Nat.mul_add_one, Nat.pow_add, Nat.mod_mul]

/-- Max emits all bits, padded with zeros. -/
theorem bitString_packBytes_max {w : Nat} {idx : List Nat} (h : ∀ i ∈ idx, i < 2 ^ w) :
    bitString 8 ((packBytes .max w idx).map BitVec.toNat) = bitString w idx := by
  have hlt := bitString_lt h
  obtain ⟨t, ht⟩ : ∃ t, idx.length * w = t := ⟨_, rfl⟩
  rw [ht] at hlt
  rw [packBytes, ht, List.map_append, bitString_append, bitString_wholeBytes, List.length_map,
    wholeBytes_length, Nat.mul_comm (t / 8) 8]
  simp only [tailBytes]
  split_ifs with htail
  · have hwhole : 8 * (t / 8) = t := by omega
    rw [hwhole, Nat.mod_eq_of_lt hlt]
    simp
  · have hrest : bitString w idx / 2 ^ (8 * (t / 8)) < 256 :=
      (leftover_lt hlt).trans_le (Nat.pow_le_pow_right (i := t % 8) (j := 8) (by decide) (by omega))
    simp only [List.map_cons, List.map_nil, bitString_cons, bitString_nil, BitVec.toNat_ofNat,
      Nat.mul_zero, Nat.add_zero]
    rw [Nat.mod_eq_of_lt (b := 2 ^ 8) hrest, Nat.mod_add_div]

/-- Index `j` stands at bit `j * w` (40_packer.md R105). -/
theorem bitString_index {w j : Nat} {idx : List Nat} (h : ∀ i ∈ idx, i < 2 ^ w)
    (hj : j < idx.length) : bitString w idx / 2 ^ (j * w) % 2 ^ w = idx[j] := by
  induction idx generalizing j with
  | nil => exact absurd hj (Nat.not_lt_zero j)
  | cons x xs ih =>
    obtain ⟨hx, hxs⟩ := List.forall_mem_cons.mp h
    cases j with
    | zero => simp [Nat.mod_eq_of_lt hx]
    | succ j =>
      have hdiv : (x + 2 ^ w * bitString w xs) / 2 ^ w = bitString w xs := by
        rw [Nat.add_mul_div_left _ _ (by positivity), Nat.div_eq_of_lt hx, Nat.zero_add]
      rw [bitString_cons, Nat.succ_mul, Nat.add_comm (j * w), Nat.pow_add, ← Nat.div_div_eq_div_mul,
        hdiv, ih hxs (Nat.lt_of_succ_lt_succ hj), List.getElem_cons_succ]

/-- The bits from `a` on, `w` of them, are left alone where the number is cut above them. -/
theorem mod_two_pow_div_mod {a w n : Nat} (h : a + w ≤ n) (b : Nat) :
    b % 2 ^ n / 2 ^ a % 2 ^ w = b / 2 ^ a % 2 ^ w := by
  obtain ⟨d, rfl⟩ := Nat.exists_eq_add_of_le h
  rw [Nat.add_assoc, Nat.pow_add 2 a, Nat.mod_mul_right_div_self,
    Nat.mod_mod_of_dvd _ (Nat.pow_dvd_pow 2 (Nat.le_add_right w d))]

/-- Bytes that hold the first `n` bits of the bit string give the first `m` indices back, if these stand
in the first `n` bits. -/
theorem unpack_eq_take {w m n : Nat} {idx : List Nat} {bytes : List Byte}
    (h : ∀ i ∈ idx, i < 2 ^ w)
    (hbytes : bitString 8 (bytes.map BitVec.toNat) = bitString w idx % 2 ^ n) (hm : m ≤ idx.length)
    (hn : m * w ≤ n) : unpack w m bytes = idx.take m := by
  refine List.ext_getElem (by simp [unpack, hm]) fun j hj _ => ?_
  have hjm : j < m := by simpa [unpack] using hj
  have hfits : j * w + w ≤ n := (Nat.succ_mul j w ▸ Nat.mul_le_mul_right w hjm).trans hn
  simp only [unpack, List.getElem_map, List.getElem_range, List.getElem_take, hbytes]
  rw [mod_two_pow_div_mod hfits, bitString_index h (by omega)]

/-- Settles O21: Max emits the whole bit string, Classic its whole bytes; an index is read back if its
bits are among them. -/
theorem packRoundTrip : Obligations.PackRoundTrip := by
  intro policy v k w idx bytes hw hpack
  obtain ⟨hk, hmax, hbits⟩ := widthOf_eq_ok hw
  obtain ⟨hidx, rfl⟩ := pack_eq_ok hw hpack
  have hwpos : 1 ≤ w := hbits ▸ (paletteBits_bounds hk (hmax.trans (maxPal_le v))).1
  have hlt : ∀ i ∈ idx, i < 2 ^ w :=
    fun i hi => (hidx i hi).trans_le (hbits ▸ le_two_pow_paletteBits k)
  have hclassic : bitString 8 ((packBytes .classic w idx).map BitVec.toNat) =
      bitString w idx % 2 ^ (8 * (idx.length * w / 8)) := by
    rw [packBytes, tailBytes, List.append_nil, bitString_wholeBytes]
  have hwhole : 8 * (idx.length * w / 8) / w ≤ idx.length := by
    rw [Nat.div_le_iff_le_mul_add_pred hwpos, Nat.mul_comm w]
    omega
  constructor
  · intro hall
    refine Eq.trans ?_ (List.take_length (l := idx))
    cases v with
    | classic =>
      have heven : idx.length * w % 8 = 0 := hall.resolve_left (by decide)
      exact unpack_eq_take hlt hclassic le_rfl (by omega)
    | max =>
      refine unpack_eq_take (n := idx.length * w) hlt ?_ le_rfl le_rfl
      rw [bitString_packBytes_max hlt, Nat.mod_eq_of_lt (bitString_lt hlt)]
  · rintro rfl
    exact unpack_eq_take hlt hclassic hwhole (Nat.div_mul_le_self _ _)

/-! ## A transaction that faults (40_packer.md R119) -/

/-- Settles O19: the state at the fault is that of the indices before it, whose whole bytes are out. -/
theorem faultedPackKeepsEarlierBytes : Obligations.FaultedPackKeepsEarlierBytes := by
  intro v k i before after w s rest hm hw hbefore hi hp
  have h : Image.Accepted ⟨v, k, before⟩ w := ⟨hw, hbefore⟩
  have hlen : before.length + after.length + 3 = (before ++ i :: after).length + 2 := by
    rw [List.length_append, List.length_cons]
    omega
  rw [hlen, run_encodePack hp, packImage_of_indexRange (s := withPending rest s) hm h hi]
  exact ⟨_, rfl, rfl, rfl, rfl, rfl, pack_of_indexRange hw ⟨i.toNat, by simp, hi⟩⟩

end Sys2Proof.Proofs

/-! PROOF. The bytes of a frame: its checksum (41_framer.md R139, R141), and that frames, wire rows and
animations are read back from their bytes (30_encoding.md R83 to R89, 42_chunker.md R160). -/

namespace Sys2Proof.Proofs

open Sys2Proof Sys2Proof.Machine

/-! ## Sums that wrap (41_framer.md R139) -/

theorem byteSum_replicate (n : Nat) (b : Byte) : byteSum (List.replicate n b) = n * b.toNat := by
  induction n with
  | zero => rw [List.replicate_zero, byteSum_nil, Nat.zero_mul]
  | succ n ih => rw [List.replicate_succ, byteSum_cons, ih, Nat.succ_mul, Nat.add_comm]

/-- The sum that `CSUM` holds modulo 65536; an accepted count has no third length byte. -/
theorem frameSum_eq (c : Byte) {n : Nat} (hn : n ≤ 65532) (args : List Byte) :
    frameSum c n args = (n + 3) % 256 + (n + 3) / 256 + c.toNat + byteSum args := by
  simp only [← frameSum_nil c hn, frameSum, byteSum_nil, Nat.add_zero]

/-- Settles O31: 255 arguments stay below 65536, and with the length bytes and the command byte all at
their largest the sum is that of the longest frame. -/
theorem checksumWrapsFrom256Arguments : Obligations.ChecksumWrapsFrom256Arguments := by
  unfold Obligations.ChecksumWrapsFrom256Arguments
  intro exactSum
  refine ⟨fun c args hlen => ?_, ?_, fun c args hlen => ?_, ?_⟩
  · have hc := c.isLt
    have hargs := byteSum_le args
    have hsum : frameSum c args.length args = exactSum c args := frameSum_eq c (by omega) args
    rw [checksum_eq_frameSum, hsum]
    simp only [exactSum]
    omega
  · have hshort : (List.replicate 256 (0xFF : Byte)).length ≤ 65532 := by
      rw [List.length_replicate]
      decide
    rw [checksum_eq_frameSum, frameSum_eq _ hshort, byteSum_replicate, List.length_replicate]
    rfl
  · have hc := c.isLt
    have hargs := byteSum_le args
    simp only [exactSum]
    omega
  · simp only [exactSum, byteSum_replicate, List.length_replicate]
    rfl

/-! ## One changed byte (41_framer.md R141) -/

/-- What the checksum is the sum of: the length bytes, the command byte and the arguments. -/
def summedBytes (c : Byte) (args : List Byte) : List Byte := le16 (args.length + 3) ++ c :: args

theorem summedBytes_length (c : Byte) (args : List Byte) :
    (summedBytes c args).length = args.length + 3 := by
  simp only [summedBytes, List.length_append, le16_length, List.length_cons]
  omega

theorem byteSum_summedBytes (c : Byte) (args : List Byte) :
    byteSum (summedBytes c args) % 65536 = checksum c args := by
  rw [checksum_eq_frameSum, frameSum, summedBytes, byteSum_append, byteSum_cons, Nat.add_assoc]

theorem frameBytes_eq_summed (c : Byte) (args : List Byte) :
    frameBytes c args =
      Config.startByte :: (summedBytes c args ++ frameTrailer (checksum c args)) := by
  simp only [frameBytes, frameHeader, summedBytes, Config.lenOverhead, List.cons_append,
    List.append_assoc, List.nil_append]

theorem byteSum_set {bs : List Byte} {j : Nat} (hj : j < bs.length) (b : Byte) :
    byteSum (bs.set j b) + bs[j].toNat = byteSum bs + b.toNat := by
  induction bs generalizing j with
  | nil => exact absurd hj (Nat.not_lt_zero j)
  | cons x xs ih =>
    cases j with
    | zero =>
      simp only [List.set_cons_zero, List.getElem_cons_zero, byteSum_cons]
      omega
    | succ j =>
      have hrest := ih (Nat.lt_of_succ_lt_succ hj)
      simp only [List.set_cons_succ, List.getElem_cons_succ, byteSum_cons]
      omega

/-- Two bytes differ by less than 65536, so a sum in which one is replaced changes. -/
theorem byteSum_set_mod_ne {bs : List Byte} {j : Nat} (hj : j < bs.length) {b : Byte}
    (hb : bs[j] ≠ b) : byteSum (bs.set j b) % 65536 ≠ byteSum bs % 65536 := by
  have hset := byteSum_set hj b
  have hold := bs[j].isLt
  have hnew := b.isLt
  have hne : bs[j].toNat ≠ b.toNat := fun h => hb (BitVec.eq_of_toNat_eq h)
  omega

/-- The two bytes of a field are determined by its number (20_memory.md R54). -/
theorem ofLe16_inj {lo hi lo' hi' : Byte} (h : ofLe16 lo hi = ofLe16 lo' hi') :
    lo = lo' ∧ hi = hi' := by
  have hlo := lo.isLt
  have hlo' := lo'.isLt
  simp only [ofLe16] at h
  exact ⟨BitVec.eq_of_toNat_eq (by omega), BitVec.eq_of_toNat_eq (by omega)⟩

/-- The sum and the field of bytes laid out as a frame with `n` arguments: the start byte, the summed
bytes, the two bytes of the field, the end byte. -/
theorem sum_and_field {summed : List Byte} {n : Nat} (hn : summed.length = n + 3)
    (start lo hi stop : Byte) :
    ((start :: (summed ++ [lo, hi, stop])).drop 1).take (n + 3) = summed ∧
    (start :: (summed ++ [lo, hi, stop])).getD (n + 4) 0 = lo ∧
    (start :: (summed ++ [lo, hi, stop])).getD (n + 5) 0 = hi := by
  refine ⟨List.take_left' hn, ?_, ?_⟩
  all_goals
    rw [List.getD_cons_succ, List.getD_append_right _ _ _ _ (by omega), hn]
    simp

/-- A changed byte is one of those summed, or one of the two of the field: either the sum or the field's
number changes, and the other does not. -/
theorem set_changes_sum_or_field {summed : List Byte} (start lo hi stop : Byte) {b : Byte} {j : Nat}
    (hj : j < summed.length + 2) (hne : (summed ++ [lo, hi, stop]).getD j 0 ≠ b) :
    ∃ summed' lo' hi',
      (start :: (summed ++ [lo, hi, stop])).set (j + 1) b = start :: (summed' ++ [lo', hi', stop]) ∧
      summed'.length = summed.length ∧
      (byteSum summed' % 65536 ≠ byteSum summed % 65536 ∧ ofLe16 lo' hi' = ofLe16 lo hi ∨
        summed' = summed ∧ ofLe16 lo' hi' ≠ ofLe16 lo hi) := by
  rw [List.set_cons_succ]
  by_cases hin : j < summed.length
  · rw [List.getD_append _ _ _ _ hin, List.getD_eq_getElem _ _ hin] at hne
    rw [List.set_append_left _ _ hin]
    exact ⟨_, _, _, rfl, List.length_set, .inl ⟨byteSum_set_mod_ne hin hne, rfl⟩⟩
  · rw [List.getD_append_right _ _ _ _ (by omega)] at hne
    rw [List.set_append_right _ _ (by omega)]
    obtain hlo | hhi : j - summed.length = 0 ∨ j - summed.length = 1 := by omega
    · rw [hlo] at hne ⊢
      exact ⟨_, _, _, rfl, rfl, .inr ⟨rfl, fun h => hne (ofLe16_inj h).1.symm⟩⟩
    · rw [hhi] at hne ⊢
      exact ⟨_, _, _, rfl, rfl, .inr ⟨rfl, fun h => hne (ofLe16_inj h).2.symm⟩⟩

/-- Settles O30: in a frame the sum is the field's number, and a changed byte changes one of the two. -/
theorem checksumFindsAnyOneByteChange : Obligations.ChecksumFindsAnyOneByteChange := by
  intro c args hlen sumOf fieldOf
  obtain ⟨cs, hcs⟩ : ∃ cs, checksum c args = cs := ⟨_, rfl⟩
  have hfield : byteSum (summedBytes c args) % 65536 = ofLe16 (lo8 cs) (hi8 cs) := by
    rw [byteSum_summedBytes, hcs]
    exact (ofLe16_le16 (by rw [← hcs, checksum]; omega)).symm
  have hframe : frameBytes c args =
      Config.startByte :: (summedBytes c args ++ [lo8 cs, hi8 cs, Config.endByte]) := by
    rw [frameBytes_eq_summed, hcs]
    rfl
  have hread {summed : List Byte} (hs : summed.length = (summedBytes c args).length) (lo hi : Byte) :
      sumOf (Config.startByte :: (summed ++ [lo, hi, Config.endByte])) = byteSum summed % 65536 ∧
      fieldOf (Config.startByte :: (summed ++ [lo, hi, Config.endByte])) = ofLe16 lo hi := by
    obtain ⟨hsum, hlo, hhi⟩ :=
      sum_and_field (hs.trans (summedBytes_length c args)) Config.startByte lo hi Config.endByte
    exact ⟨by simp only [sumOf, hsum], by simp only [fieldOf, hlo, hhi]⟩
  rw [hframe]
  refine ⟨?_, fun j b hj hj' hne => ?_⟩
  · obtain ⟨hsum, hnumber⟩ := hread rfl (lo8 cs) (hi8 cs)
    rw [hsum, hnumber, hfield]
  · obtain ⟨i, rfl⟩ : ∃ i, j = i + 1 := ⟨j - 1, by omega⟩
    obtain ⟨summed', lo', hi', hset, hlength, hchange⟩ :=
      set_changes_sum_or_field Config.startByte (lo8 cs) (hi8 cs) Config.endByte (j := i) (b := b)
        (by rw [summedBytes_length]; omega) hne
    obtain ⟨hsum, hnumber⟩ := hread hlength lo' hi'
    rw [hset, hsum, hnumber]
    obtain ⟨hsum', hsame⟩ | ⟨rfl, hnumber'⟩ := hchange
    · rwa [hsame, ← hfield]
    · rw [hfield]
      exact hnumber'.symm

/-! ## Reading one frame (30_encoding.md R83, R84) -/

/-- The bytes of a frame, one by one up to its arguments. -/
theorem frameBytes_eq_cons (c : Byte) (args : List Byte) :
    frameBytes c args = Config.startByte :: lo8 (args.length + 3) :: hi8 (args.length + 3) :: c ::
      (args ++ frameTrailer (checksum c args)) := by
  simp only [frameBytes, frameHeader, le16, Config.lenOverhead, List.cons_append, List.nil_append]

/-- Settles O9: the length field says where the arguments end and the trailer begins. -/
theorem frameReadsBack : Obligations.FrameReadsBack := by
  intro c args hlen
  have hlength : ofLe16 (lo8 (args.length + 3)) (hi8 (args.length + 3)) = args.length + 3 :=
    ofLe16_le16 (by omega)
  have hcs : ofLe16 (lo8 (checksum c args)) (hi8 (checksum c args)) = checksum c args :=
    ofLe16_le16 (by rw [checksum]; omega)
  rw [frameBytes_eq_cons, readFrame]
  simp only [hlength, Config.lenOverhead, Nat.add_sub_cancel, List.drop_left, List.take_left,
    frameTrailer, le16, List.cons_append, List.nil_append, hcs, true_and, Nat.le_add_left, if_true]

/-! ## Reading a wire row (30_encoding.md R85 to R89) -/

theorem decodeWire_frameBytes (c : Byte) {args : List Byte} (h : args.length ≤ 65532) :
    decodeWire (frameBytes c args) = some (knownCommand c args) := by
  rw [decodeWire, frameReadsBack c args h, Option.map_some]

/-- A frame that fits is read as the known command it is. -/
theorem frame_bind_decodeWire (c : Byte) {args : List Byte} (h : args.length ≤ 65532) :
    (frame c args).toOption.bind decodeWire = some (knownCommand c args) := by
  rw [frame_of_fits c h]
  exact decodeWire_frameBytes c h

theorem frame_toOption_of_tooLarge (c : Byte) {args : List Byte} (h : 65532 < args.length) :
    (frame c args).toOption = none := by
  rw [frame_of_tooLarge c h]
  rfl

theorem readPacket_packetArgs (size : Half) (index : Byte) (slice : List Byte) :
    readPacket (packetArgs size index slice) = some (size, index, slice) := by
  have hsize : BitVec.ofNat 16 (ofLe16 (lo8 size.toNat) (hi8 size.toNat)) = size :=
    ofNat_eq_of_toNat_eq (ofLe16_le16 (Nat.le_of_lt_succ size.isLt)).symm
  have hindex : BitVec.ofNat 8 index.toNat = index := ofNat_eq_of_toNat_eq rfl
  simp only [packetArgs, packetLead, le16, List.cons_append, List.nil_append, readPacket, hsize,
    hindex]

theorem knownCommand_packetArgs {size : Half} {index : Byte} {slice : List Byte}
    (h : packetFits size index slice = true) :
    knownCommand Config.cmdAnim (packetArgs size index slice) = .wirePacket size index slice := by
  have hother : Config.cmdAnim ≠ Config.cmdBrightness ∧ Config.cmdAnim ≠ Config.cmdBoxMode ∧
    Config.cmdAnim ≠ Config.cmdRgb ∧ Config.cmdAnim ≠ Config.cmdPic := by decide
  obtain ⟨hbrightness, hboxMode, hrgb, hpic⟩ := hother
  unfold knownCommand
  rw [if_neg hbrightness, if_neg hboxMode, if_neg hrgb, if_neg hpic, if_pos rfl,
    readPacket_packetArgs]
  exact if_pos h

/-- Settles O10: a row's bytes are a frame, and the command byte and the shape of the arguments say
which row it is. -/
theorem wireRowsReadBack : Obligations.WireRowsReadBack := by
  refine ⟨fun level => frame_bind_decodeWire Config.cmdBrightness (args := [level]) (by simp),
    fun m v u => frame_bind_decodeWire Config.cmdBoxMode (args := [m, v, u]) (by simp),
    fun r g b => frame_bind_decodeWire Config.cmdRgb (args := [r, g, b]) (by simp),
    fun sub hsub => ?drawPicture, fun size index slice hfits => ?wirePacket,
    fun c args hargs => ?wireFrame, fun c args hargs => frame_toOption_of_tooLarge c hargs,
    fun sub hsub => ?pictureTooLarge, fun size index slice hfits => ?noPacket, fun p hp => ?noAnim⟩
  case drawPicture =>
    have hargs : (Config.picLead ++ sub).length = sub.length + 4 := rfl
    exact frame_bind_decodeWire _ (by omega)
  case wirePacket =>
    have hargs : (packetArgs size index slice).length = slice.length + 3 := rfl
    have hslice : slice.length ≤ 200 := slice_length_le_of_packetFits hfits
    rw [encodeWire, encodePacket, if_pos hfits, frame_bind_decodeWire _ (by omega),
      knownCommand_packetArgs hfits]
  case wireFrame =>
    rw [encodeWire, frame_of_fits c hargs]
    exact frameReadsBack c args hargs
  case pictureTooLarge =>
    have hargs : (Config.picLead ++ sub).length = sub.length + 4 := rfl
    exact frame_toOption_of_tooLarge _ (by omega)
  case noPacket =>
    rw [encodeWire, encodePacket, hfits]
    rfl
  case noAnim =>
    rw [encodeWire, anim_of_tooLarge hp]
    rfl

/-! ## Reading an animation (42_chunker.md R160, R161) -/

/-- The first frame is cut off by its length field. -/
theorem cutFrames_frameBytes (c : Byte) {args : List Byte} (h : args.length ≤ 65532) (fuel : Nat)
    (more : List Byte) :
    cutFrames (fuel + 1) (frameBytes c args ++ more) =
      (cutFrames fuel more).map (frameBytes c args :: ·) := by
  have hsize : ofLe16 (lo8 (args.length + 3)) (hi8 (args.length + 3)) + 4 =
      (frameBytes c args).length := by
    rw [ofLe16_le16 (by omega), frameBytes_length]
  have hcons := frameBytes_eq_cons c args
  have hle : (frameBytes c args).length ≤ (frameBytes c args ++ more).length := by simp
  have hcut : cutFrames (fuel + 1) (frameBytes c args ++ more) =
      (cutFrames fuel ((frameBytes c args ++ more).drop (frameBytes c args).length)).map
        ((frameBytes c args ++ more).take (frameBytes c args).length :: ·) := by
    rw [← hsize] at hle ⊢
    rw [hcons, List.cons_append, List.cons_append, List.cons_append] at hle ⊢
    exact if_pos hle
  rw [hcut, List.drop_left, List.take_left]

/-- The packet frames of an animation from packet `i` on, `n` of them, are cut apart again. -/
theorem cutFrames_packets (p : List Byte) (n i fuel : Nat) (hfuel : n ≤ fuel) :
    cutFrames fuel (((List.range' i n).map fun k => frameBytes Config.cmdAnim (packetOf p k)).flatten) =
      some ((List.range' i n).map fun k => frameBytes Config.cmdAnim (packetOf p k)) := by
  induction n generalizing i fuel with
  | zero => cases fuel <;> rfl
  | succ n ih =>
    obtain ⟨fuel, rfl⟩ := Nat.exists_eq_succ_of_ne_zero (by omega : fuel ≠ 0)
    have hargs : (packetOf p i).length ≤ 65532 := by
      rw [packetOf_length, sliceOf_length]
      omega
    rw [List.range'_succ, List.map_cons, List.flatten_cons, cutFrames_frameBytes _ hargs,
      ih (i + 1) fuel (by omega), Option.map_some]

/-- The packet frames from packet `i` on, `n` of them, have the payload's size and their own index, and
give their slices. -/
theorem readSlices_packets {p : List Byte} (hp : p.length ≤ 65535) (n i : Nat) (hi : i + n ≤ 256) :
    readSlices p.length i
        ((List.range' i n).map fun k => frameBytes Config.cmdAnim (packetOf p k)) =
      some (((List.range' i n).map (sliceOf p)).flatten) := by
  induction n generalizing i with
  | zero => rfl
  | succ n ih =>
    have hargs : (packetOf p i).length ≤ 65532 := by
      rw [packetOf_length, sliceOf_length]
      omega
    have hsize : ofLe16 (lo8 p.length) (hi8 p.length) = p.length := ofLe16_le16 hp
    have hindex : (BitVec.ofNat 8 i).toNat = i := ofNat8_toNat (by omega)
    have hread : readFrame (frameBytes Config.cmdAnim (packetOf p i)) =
        some (Config.cmdAnim, lo8 p.length :: hi8 p.length :: BitVec.ofNat 8 i :: sliceOf p i) :=
      frameReadsBack _ _ hargs
    rw [List.range'_succ, List.map_cons, readSlices, hread]
    simp only [hsize, hindex, true_and, if_true, ih (i + 1) (by omega), Option.map_some,
      List.map_cons, List.flatten_cons]

/-- The frames of the first `n` packets: their slices, and ten bytes more for each
(42_chunker.md R161). -/
theorem packetFrames_length_eq (p : List Byte) (n : Nat) :
    (packetFrames p n).length = min (200 * n) p.length + 10 * n := by
  induction n with
  | zero => simp [packetFrames_zero]
  | succ n ih =>
    rw [packetFrames_succ, List.length_append, ih, frameBytes_length, packetOf_length, sliceOf_length]
    omega

theorem animBytes_length (p : List Byte) :
    (animBytes p).length = p.length + 10 * ((p.length + 199) / 200) := by
  rw [animBytes_eq_packetFrames, packetFrames_length_eq]
  omega

/-- Settles O44: the slices are the payload, and each frame adds ten bytes. -/
theorem animOutputSize : Obligations.AnimOutputSize := by
  intro p _
  refine ⟨animBytes_length p, fun i hi => ?_⟩
  rw [packets_length] at hi ⊢
  rw [frameBytes_length, packetOf_length, sliceOf_length]
  split_ifs <;> omega

/-- Settles O11: the frames are cut apart, their number says the payload's size, and their slices in
order are the payload. -/
theorem animReadsBack : Obligations.AnimReadsBack := by
  intro p hp
  obtain ⟨n, hn⟩ : ∃ n, (p.length + 199) / 200 = n := ⟨_, rfl⟩
  obtain ⟨frames, hframes⟩ : ∃ frames,
    (List.range' 0 n).map (fun k => frameBytes Config.cmdAnim (packetOf p k)) = frames := ⟨_, rfl⟩
  have hbytes : animBytes p = frames.flatten := by
    rw [animBytes_eq_packetFrames, packetFrames, hn, List.range_eq_range', hframes]
  have hlength : frames.flatten.length = p.length + 10 * n := by rw [← hbytes, animBytes_length, hn]
  have hcount : frames.length = n := by rw [← hframes, List.length_map, List.length_range']
  have hcut : cutFrames (animBytes p).length (animBytes p) = some frames := by
    rw [hbytes, hlength, ← hframes]
    exact cutFrames_packets p n 0 _ (by omega)
  have hsize : (frames.map List.length).sum - 10 * frames.length = p.length := by
    rw [← List.length_flatten, hlength, hcount, Nat.add_sub_cancel]
  have hslices : readSlices p.length 0 frames = some p := by
    rw [← hframes, readSlices_packets (by omega) n 0 (by omega), ← List.range_eq_range',
      flatten_map_sliceOf, List.take_of_length_le (by omega)]
  simp only [decodeAnim, hcut, hsize, hslices, and_self, if_true]

end Sys2Proof.Proofs

/-! PROOF. The wire rows and pseudo-operations from `IDLE`: what each puts on `TXO` and leaves in the
registers (43_pseudo_ops.md R173 to R179). -/

namespace Sys2Proof.Proofs

open Sys2Proof Sys2Proof.Machine

/-! ## A whole frame (43_pseudo_ops.md R173) -/

section Frame

variable {s : State}

/-- From `IDLE` a whole frame leaves no register of another unit changed, and no count. -/
theorem frameState_whole (c : Byte) (args : List Byte) (hm : s.mode = .idle) :
    frameState c args.length args s =
      { s with
        txo := s.txo ++ frameBytes c args
        csum := BitVec.ofNat 16 (checksum c args)
        frem := 0 } := by
  have htxo := frameState_txo_whole c args s
  have hmode : (frameState c args.length args s).mode = s.mode :=
    (frameState_mode_whole c args s).trans hm.symm
  have hfrem : (frameState c args.length args s).frem = 0 := by simp [frameState]
  calc frameState c args.length args s
      = { s with
          mode := (frameState c args.length args s).mode
          txo := (frameState c args.length args s).txo
          csum := BitVec.ofNat 16 (frameSum c args.length args)
          frem := (frameState c args.length args s).frem } := rfl
    _ = _ := by rw [hmode, htxo, hfrem, checksum_eq_frameSum, ofNat16_mod]

theorem sendFrame_whole (c : Byte) {args : List Byte} (hm : s.mode = .idle)
    (h : args.length ≤ 65532) : sendFrame c args s = .next
      { s with
        txo := s.txo ++ frameBytes c args
        csum := BitVec.ofNat 16 (checksum c args)
        frem := 0 } := by
  rw [sendFrame_of_fits c hm h, frameState_whole c args hm]

theorem sendFrame_of_no_expansion (c : Byte) {args : List Byte} (h : 65535 < args.length) :
    sendFrame c args s = .refused .noExpansion := by
  have hlong : listTooLong args = true := by simpa [listTooLong] using h
  rw [sendFrame, if_pos hlong]

end Frame

/-- Settles O32: the list fits a frame, or only the count operand, or neither. -/
theorem wireFramePutsFrame : Obligations.WireFramePutsFrame := by
  intro c args s hm
  change sendFrame c args s = _
  split_ifs with hfits hcount
  · exact sendFrame_whole c hm hfits
  · exact sendFrame_of_tooLarge c hm (by omega) hcount
  · exact sendFrame_of_no_expansion c (by omega)

/-! ## Short frames, byte for byte (30_encoding.md R86 to R89) -/

/-- Up to 252 arguments the high length byte is zero and the sum does not wrap. -/
theorem frameBytes_short (c : Byte) {args : List Byte} {cs : Nat} (h : args.length ≤ 252)
    (hcs : args.length + 3 + c.toNat + byteSum args = cs) :
    checksum c args = cs ∧
    frameBytes c args = [0x01, BitVec.ofNat 8 (args.length + 3), 0x00, c] ++ args ++
      [BitVec.ofNat 8 cs, BitVec.ofNat 8 (cs / 256), 0x02] := by
  have hc := c.isLt
  have hargs := byteSum_le args
  have hsum : checksum c args = cs := by
    rw [checksum_eq_frameSum, frameSum_eq c (by omega)]
    omega
  have hhi : hi8 (args.length + 3) = 0x00 :=
    congrArg (BitVec.ofNat 8) (Nat.div_eq_of_lt (by omega))
  refine ⟨hsum, ?_⟩
  rw [frameBytes_eq_cons, hsum, hhi]
  rfl

theorem sendFrame_short (c : Byte) {args : List Byte} {cs : Nat} {s : State} (hm : s.mode = .idle)
    (h : args.length ≤ 252) (hcs : args.length + 3 + c.toNat + byteSum args = cs) :
    sendFrame c args s = .next
      { s with
        txo := s.txo ++ ([0x01, BitVec.ofNat 8 (args.length + 3), 0x00, c] ++ args ++
          [BitVec.ofNat 8 cs, BitVec.ofNat 8 (cs / 256), 0x02])
        csum := BitVec.ofNat 16 cs
        frem := 0 } := by
  obtain ⟨hsum, hbytes⟩ := frameBytes_short c h hcs
  rw [sendFrame_whole c hm (by omega), hbytes, hsum]

/-- Settles O33: one and three arguments make short frames. -/
theorem fixedCommandsPutTheirFrames : Obligations.FixedCommandsPutTheirFrames := by
  refine ⟨fun level s hm => ?_, fun m v u s hm => ?_, fun r g b s hm => ?_⟩
  · have hcs : 1 + 3 + Config.cmdBrightness.toNat + byteSum [level] = 0x78 + level.toNat := rfl
    exact sendFrame_short (args := [level]) _ hm (by simp) hcs
  · have hcs : 3 + 3 + Config.cmdBoxMode.toNat + byteSum [m, v, u] =
        0x4B + m.toNat + v.toNat + u.toNat := by
      simp only [byteSum_cons, byteSum_nil, Config.cmdBoxMode, BitVec.reduceToNat]
      omega
    exact sendFrame_short (args := [m, v, u]) _ hm (by simp) hcs
  · have hcs : 3 + 3 + Config.cmdRgb.toNat + byteSum [r, g, b] =
        0x75 + r.toNat + g.toNat + b.toNat := by
      simp only [byteSum_cons, byteSum_nil, Config.cmdRgb, BitVec.reduceToNat]
      omega
    exact sendFrame_short (args := [r, g, b]) _ hm (by simp) hcs

/-- Settles O34: the four lead bytes and the SubFrame are the arguments. -/
theorem drawPicturePutsFrame : Obligations.DrawPicturePutsFrame := by
  refine ⟨fun sub s hm hlen => ?_, fun _ _ => rfl⟩
  have hargs : (Config.picLead ++ sub).length = sub.length + 4 := rfl
  exact sendFrame_whole Config.cmdPic hm (by omega)

/-- A packet's lead as the bytes of R86. -/
theorem packetArgs_eq (size : Half) (index : Byte) (slice : List Byte) :
    packetArgs size index slice =
      [BitVec.ofNat 8 size.toNat, BitVec.ofNat 8 (size.toNat / 256), index] ++ slice := by
  have hindex : BitVec.ofNat 8 index.toNat = index := ofNat_eq_of_toNat_eq rfl
  rw [packetArgs, packetLead, hindex]
  rfl

/-- Settles O35: a packet's 4 to 203 arguments make a short frame. -/
theorem wirePacketPutsFrame : Obligations.WirePacketPutsFrame := by
  refine ⟨fun size index slice s hm hpos hlen => ?_, fun size index slice s => ?_⟩
  · obtain ⟨lead, hlead⟩ : ∃ lead,
      [BitVec.ofNat 8 size.toNat, BitVec.ofNat 8 (size.toNat / 256), index] = lead := ⟨_, rfl⟩
    have hargs := packetArgs_eq size index slice
    have hlength : (lead ++ slice).length + 3 = slice.length + 6 := by
      simp only [← hlead, List.length_append, List.length_cons, List.length_nil]
      omega
    have hcs : (lead ++ slice).length + 3 + Config.cmdAnim.toNat + byteSum (lead ++ slice) =
        slice.length + 6 + 0x49 + byteSum lead + byteSum slice := by
      rw [hlength, byteSum_append, ← Nat.add_assoc]
      rfl
    change sendFrame Config.cmdAnim (packetArgs size index slice) s = _
    rw [hargs, hlead, sendFrame_short _ hm (by omega) hcs, hlength]
    simp only [List.append_assoc]
    rfl
  · exact congrArg (sendFrame Config.cmdAnim · s) (packetArgs_eq size index slice)

/-! ## An animation (43_pseudo_ops.md R174) -/

theorem execAnim_of_no_expansion {p : List Byte} (h : 65535 < p.length) (s : State) :
    execAnim p s = .refused .noExpansion := by
  have hlong : listTooLong p = true := by simpa [listTooLong] using h
  rw [execAnim, if_pos hlong]

/-- Settles O36: the payload is empty, or fits the packets, or only the count operand, or neither. -/
theorem animPutsPacketFrames : Obligations.AnimPutsPacketFrames := by
  intro p s hm
  change execAnim p s = _
  split_ifs with hempty hfits hcount
  · rw [List.length_eq_zero_iff.mp hempty, execAnim_nil hm]
  · rw [execAnim_of_fits hm (Nat.pos_of_ne_zero hempty) hfits, animState, ← hm]
    rfl
  · exact execAnim_of_tooLarge hm (by omega) hcount
  · exact execAnim_of_no_expansion (by omega) s

/-! ## What an earlier frame left (10_state.md R32) -/

/-- Settles O29: the state after the opening, after the frame and after the animation is written without
the checksum and the count held before. -/
theorem frameIgnoresEarlierFrame : Obligations.FrameIgnoresEarlierFrame := by
  intro s cs fr hm
  have hm' : State.mode { s with csum := cs, frem := fr } = .idle := hm
  refine ⟨fun c n hn => ?_, fun c args hargs => ?_, fun p hpos hp => ?_⟩
  · exact (execFrBegin_of_fits c hm' hn).trans (execFrBegin_of_fits c hm hn).symm
  · exact (sendFrame_of_fits c hm' hargs).trans (sendFrame_of_fits c hm hargs).symm
  · exact (execAnim_of_fits hm' hpos hp).trans (execAnim_of_fits hm hpos hp).symm

end Sys2Proof.Proofs

/-! PROOF. What a step can write, in every state: `Effect` says once what an operation in its own mode
changes, and with the ignored and the faulting words that is all a word can do (10_state.md R40,
60_exceptions.md R217 to R219). -/

namespace Sys2Proof.Proofs

open Sys2Proof Sys2Proof.Machine

/-! ## The effect of an operation -/

/-- At most `n` bytes have been appended to a stream (20_memory.md R52). -/
def Appends (n : Nat) (old new : List Byte) : Prop := ∃ bytes, new = old ++ bytes ∧ bytes.length ≤ n

theorem appends_refl (n : Nat) (bytes : List Byte) : Appends n bytes bytes :=
  ⟨[], (List.append_nil bytes).symm, Nat.zero_le n⟩

theorem Appends.append {n n' : Nat} {old new bytes : List Byte} (h : Appends n old new)
    (hbytes : bytes.length ≤ n') : Appends (n + n') old (new ++ bytes) := by
  obtain ⟨bytes', rfl, hlen⟩ := h
  refine ⟨bytes' ++ bytes, List.append_assoc _ _ _, ?_⟩
  rw [List.length_append]
  omega

theorem Appends.mono {n n' : Nat} {old new : List Byte} (h : Appends n old new) (hn : n ≤ n') :
    Appends n' old new := by
  obtain ⟨bytes, he, hlen⟩ := h
  exact ⟨bytes, he, hlen.trans hn⟩

/-- What an operation that is admitted and raises no fault makes of `s`: the columns written of
10_state.md R40, and how many bytes leave. -/
inductive Effect (s : State) : Instr → State → Prop
  | pkCfg {v : Variant} {k : Half} {w : Nat} (hw : widthOf Config.k1Policy v k.toNat = .ok w) :
    Effect s (.pkCfg v k) (packState ⟨v, k, []⟩ w s)
  | pkPush {i : Half} {acc : BitVec 15} {nbits : BitVec 4} {pko : List Byte}
    (hpko : Appends 1 s.pko pko) :
    Effect s (.pkPush i) { s with acc := acc, nbits := nbits, pko := pko }
  | pkEnd {pko : List Byte} (hpko : Appends 1 s.pko pko) :
    Effect s .pkEnd { s with acc := 0, nbits := 0, pko := pko, mode := .idle }
  | frBegin {c : Byte} {n : Half} {csum frem : BitVec 16} {txo : List Byte} {mode : Mode}
    (htxo : Appends 7 s.txo txo) (hmode : mode = .idle ∨ mode = .frame) :
    Effect s (.frBegin c n) { s with csum := csum, frem := frem, txo := txo, mode := mode }
  | frData {b : Byte} {csum frem : BitVec 16} {txo : List Byte} {mode : Mode}
    (htxo : Appends 4 s.txo txo) (hmode : mode = .idle ∨ mode = .frame) :
    Effect s (.frData b) { s with csum := csum, frem := frem, txo := txo, mode := mode }
  | chBegin {size : Half} {csum frem ctotal crem : BitVec 16} {cidx : BitVec 8} {txo : List Byte}
    {mode : Mode} (htxo : Appends 7 s.txo txo) (hmode : mode = .idle ∨ mode = .chunk) :
    Effect s (.chBegin size)
      { s with
        csum := csum, frem := frem, ctotal := ctotal, crem := crem, cidx := cidx, txo := txo
        mode := mode }
  | chData {b : Byte} {csum frem crem : BitVec 16} {cidx : BitVec 8} {txo : List Byte} {mode : Mode}
    (htxo : Appends 11 s.txo txo) (hmode : mode = .idle ∨ mode = .chunk) :
    Effect s (.chData b)
      { s with csum := csum, frem := frem, crem := crem, cidx := cidx, txo := txo, mode := mode }

/-- Opening a packing transaction puts out no byte. -/
theorem packState_opened_pko (v : Variant) (k : Half) (w : Nat) (s : State) :
    (packState ⟨v, k, []⟩ w s).pko = s.pko := by
  simp [packState, Image.bytesSoFar, wholeBytes]

section Effects

variable {s t : State}

theorem closing_length_le (frem csum : Nat) : (closing frem csum).length ≤ 3 := by
  rw [closing]
  split_ifs <;> simp

theorem execPkCfg_effect {v : Variant} {k : Half} (hm : s.mode = .idle)
    (hf : operandFault s (.pkCfg v k) = none) (ht : execPkCfg v k s = .next t) :
    Effect s (.pkCfg v k) t := by
  cases hw : widthOf Config.k1Policy v k.toNat with
  | fault f => simp [operandFault_pkCfg_eq_some.mpr hw] at hf
  | ok w =>
    cases (execPkCfg_of_ok hm hw).symm.trans ht
    exact .pkCfg hw

theorem pushIndex_effect {i : Half} (ht : pushIndex i.toNat s = .next t) :
    Effect s (.pkPush i) t := by
  obtain ⟨-, he⟩ | ⟨-, -, -, he⟩ | ⟨-, -, he⟩ := pushIndex_cases i.toNat s
  all_goals cases he.symm.trans ht
  · exact .pkPush ⟨_, rfl, le_rfl⟩
  · exact .pkPush (appends_refl 1 s.pko)

theorem execPkPush_effect {i : Half} (hm : s.mode = .pack)
    (hf : operandFault s (.pkPush i) = none) (ht : execPkPush i s = .next t) :
    Effect s (.pkPush i) t := by
  have hrange : ¬ s.psize.toNat ≤ i.toNat := fun h => by
    simp [operandFault_pkPush_eq_some.mpr ⟨h, rfl⟩] at hf
  rw [execPkPush_of_pack i hm, if_neg hrange] at ht
  exact pushIndex_effect ht

theorem execPkEnd_effect (hm : s.mode = .pack) (ht : execPkEnd s = .next t) : Effect s .pkEnd t := by
  rw [execPkEnd_of_pack hm, emitTail_eq] at ht
  cases ht
  refine .pkEnd ⟨_, rfl, ?_⟩
  split_ifs <;> simp

theorem execFrBegin_effect {c : Byte} {n : Half} (hm : s.mode = .idle)
    (hf : operandFault s (.frBegin c n) = none) (ht : execFrBegin c n s = .next t) :
    Effect s (.frBegin c n) t := by
  have hfits : ¬ 65532 < n.toNat := fun h => by
    simp [operandFault_frBegin_eq_some.mpr ⟨h, rfl⟩] at hf
  cases (execFrBegin_of_fits c hm (by omega)).symm.trans ht
  refine .frBegin ?_ ?_
  · have hheader : Appends 4 s.txo (s.txo ++ frameHeader c n.toNat) :=
      (appends_refl 0 s.txo).append le_rfl
    have hnone : Appends 4 s.txo (s.txo ++ frameHeader c n.toNat ++ []) := hheader.append le_rfl
    exact hnone.append (closing_length_le _ _)
  · split_ifs <;> simp

/-- `FR.DATA` goes on only where a byte is missing. -/
theorem frem_pos_of_takeArgument {b : Byte} (ht : takeArgument b s = .next t) :
    1 ≤ s.frem.toNat := by
  refine toNat_pos_of_ne_zero fun hfrem => ?_
  rw [takeArgument, if_pos hfrem] at ht
  cases ht

/-- `CH.DATA` goes on only where a byte is missing: inside a packet, or with the payload's last byte, or
with another packet to follow. -/
theorem counts_of_takePayloadByte {b : Byte} (ht : takePayloadByte b s = .next t) :
    (2 ≤ s.frem.toNat ∧ 1 ≤ s.crem.toNat) ∨ (s.frem.toNat = 1 ∧ s.crem.toNat = 1) ∨
    (s.frem.toNat = 1 ∧ 2 ≤ s.crem.toNat ∧ s.cidx.toNat < 255) := by
  by_cases hzero : s.frem = 0 ∨ s.crem = 0
  · rw [takePayloadByte, if_pos hzero] at ht
    cases ht
  · obtain ⟨hfrem, hcrem⟩ := not_or.mp hzero
    have hcrem1 := toNat_pos_of_ne_zero hcrem
    obtain ⟨hinside, -⟩ | ⟨hlast, hpayload, -⟩ | ⟨-, -, -, he⟩ | ⟨hlast, hmore, hidx, -⟩ :=
      takePayloadByte_cases b s (toNat_pos_of_ne_zero hfrem) hcrem1
    · exact .inl ⟨hinside, hcrem1⟩
    · exact .inr (.inl ⟨hlast, hpayload⟩)
    · cases he.symm.trans ht
    · exact .inr (.inr ⟨hlast, hmore, by omega⟩)

theorem execFrData_effect {b : Byte} (hm : s.mode = .frame) (ht : execFrData b s = .next t) :
    Effect s (.frData b) t := by
  rw [execFrData, inMode_own (by decide) hm] at ht
  cases (takeArgument_eq b s (frem_pos_of_takeArgument ht)).symm.trans ht
  have hbyte : Appends 1 s.txo (s.txo ++ [b]) := (appends_refl 0 s.txo).append le_rfl
  refine .frData (hbyte.append (closing_length_le _ _)) ?_
  rw [hm]
  split_ifs <;> simp

theorem execChBegin_effect {size : Half} (hm : s.mode = .idle)
    (hf : operandFault s (.chBegin size) = none) (ht : execChBegin size s = .next t) :
    Effect s (.chBegin size) t := by
  have hfits : ¬ payloadTooLarge size = true := fun h => by
    simp [operandFault_chBegin_eq_some.mpr ⟨(payloadTooLarge_iff size).mp h, rfl⟩] at hf
  by_cases h0 : size = 0
  · subst h0
    cases (execChBegin_empty hm).symm.trans ht
    exact .chBegin (appends_refl 7 s.txo) (.inl hm)
  · have hpos : 1 ≤ size.toNat := toNat_pos_of_ne_zero h0
    rw [execChBegin, inMode_own (by decide) hm, if_neg hfits, if_neg h0, openChunks,
      chunkOpen_eq _ hpos] at ht
    cases ht
    have hheader : Appends 4 s.txo (s.txo ++ frameHeader Config.cmdAnim (min 200 size.toNat + 3)) :=
      (appends_refl 0 s.txo).append le_rfl
    exact .chBegin (hheader.append (n' := 3) le_rfl) (.inr rfl)

theorem execChData_effect {b : Byte} (hm : s.mode = .chunk) (ht : execChData b s = .next t) :
    Effect s (.chData b) t := by
  rw [execChData, inMode_own (by decide) hm] at ht
  have hbyte : Appends 1 s.txo (s.txo ++ [b]) := (appends_refl 0 s.txo).append le_rfl
  obtain ⟨hinside, hcrem⟩ | ⟨hlast, hpayload⟩ | ⟨hlast, hmore, hidx⟩ := counts_of_takePayloadByte ht
  · cases (takePayloadByte_inside b s hinside hcrem).symm.trans ht
    exact .chData (hbyte.mono (by decide)) (.inr hm)
  · cases (takePayloadByte_last b s hlast hpayload).symm.trans ht
    exact .chData ((hbyte.append (n' := 3) le_rfl).mono (by decide)) (.inl rfl)
  · cases (takePayloadByte_next b s hlast hmore hidx).symm.trans ht
    have htrailer := hbyte.append (n' := 3)
      (frameTrailer_length ((s.csum.toNat + b.toNat) % 65536)).le
    exact .chData ((htrailer.append (n' := 4) le_rfl).append (n' := 3) le_rfl) (.inr hm)

/-- Past the checks an operation has its effect, or stops. -/
theorem exec_effect {i : Instr} (hm : admittingMode i = some s.mode) (hf : operandFault s i = none)
    (ht : exec i s = .next t) : Effect s i t := by
  have hmode {m : Mode} (h : some m = some s.mode) : s.mode = m := (Option.some.inj h).symm
  cases i
  case pkCfg v k => exact execPkCfg_effect (hmode hm) hf ht
  case pkPush i => exact execPkPush_effect (hmode hm) hf ht
  case pkEnd => exact execPkEnd_effect (hmode hm) ht
  case frBegin c n => exact execFrBegin_effect (hmode hm) hf ht
  case frData b => exact execFrData_effect (hmode hm) ht
  case chBegin size => exact execChBegin_effect (hmode hm) hf ht
  case chData b => exact execChData_effect (hmode hm) ht
  all_goals cases hm

/-- Everything an operation of the table can do, in every state: it is ignored, or raises a fault, or
has its effect. -/
theorem exec_cases {i : Instr} {m : Mode} {w : Word} (hm : admittingMode i = some m)
    (hw : encode i = [w]) (ht : exec i s = .next t) :
    (s.mode = .fault ∧ t = s) ∨ (s.mode ≠ .fault ∧ ∃ f, t = raise f w s) ∨
    (s.mode = m ∧ Effect s i t) := by
  obtain ⟨hne, body, hexec⟩ := exec_eq_inMode hm hw
  obtain ⟨hs, he⟩ | ⟨hs, -, he⟩ | ⟨rfl, -⟩ := inMode_cases m w body s hne
  · cases he.symm.trans ((hexec s).symm.trans ht)
    exact .inl ⟨hs, rfl⟩
  · cases he.symm.trans ((hexec s).symm.trans ht)
    exact .inr (.inl ⟨hs, _, rfl⟩)
  · cases hf : operandFault s i with
    | none => exact .inr (.inr ⟨rfl, exec_effect hm hf ht⟩)
    | some f =>
      cases (exec_operandFault hm hw hf).symm.trans ht
      exact .inr (.inl ⟨hne, f, rfl⟩)

theorem execIllegal_cases {w : Word} (ht : execIllegal w s = .next t) :
    (s.mode = .fault ∧ t = s) ∨ (s.mode ≠ .fault ∧ t = raise .illegalOp w s) := by
  by_cases hs : s.mode = .fault
  · cases (if_pos hs).symm.trans ht
    exact .inl ⟨hs, rfl⟩
  · cases (if_neg hs).symm.trans ht
    exact .inr ⟨hs, rfl⟩

/-- Everything a command word can do, in every state. -/
theorem exec_decode_cases {w : Word} (ht : exec (decode w) s = .next t) :
    (s.mode = .fault ∧ t = s) ∨ (s.mode ≠ .fault ∧ ∃ f, t = raise f w s) ∨
    (admittingMode (decode w) = some s.mode ∧ Effect s (decode w) t) := by
  obtain ⟨-, hillegal⟩ | ⟨-, hw, m, hm⟩ := decode_illegal_or_admitted w
  · rw [hillegal] at ht
    obtain ⟨hs, he⟩ | ⟨hs, he⟩ := execIllegal_cases ht
    · exact .inl ⟨hs, he⟩
    · exact .inr (.inl ⟨hs, _, he⟩)
  · obtain hignored | hraised | ⟨hs, heffect⟩ := exec_cases hm hw ht
    · exact .inl hignored
    · exact .inr (.inl hraised)
    · exact .inr (.inr ⟨hm.trans (congrArg some hs.symm), heffect⟩)

theorem Effect.mode_ne_fault {i : Instr} (h : Effect s i t) (hs : s.mode ≠ .fault) :
    t.mode ≠ .fault := by
  cases h with
  | pkCfg | pkEnd => exact nofun
  | pkPush => exact hs
  | frBegin _ hmode | frData _ hmode | chBegin _ hmode | chData _ hmode =>
    obtain rfl | rfl := hmode <;> exact nofun

/-- One stream only gains bytes, and few (20_memory.md R59). -/
theorem Effect.emits {i : Instr} (h : Effect s i t) :
    Appends 1 s.pko t.pko ∧ t.txo = s.txo ∨ t.pko = s.pko ∧ Appends 11 s.txo t.txo := by
  cases h with
  | pkCfg =>
    exact .inl ⟨(packState_opened_pko _ _ _ s).symm ▸ appends_refl 1 s.pko, rfl⟩
  | pkPush hpko | pkEnd hpko => exact .inl ⟨hpko, rfl⟩
  | frBegin htxo | chBegin htxo => exact .inr ⟨rfl, htxo.mono (by decide)⟩
  | frData htxo => exact .inr ⟨rfl, htxo.mono (by decide)⟩
  | chData htxo => exact .inr ⟨rfl, htxo⟩

end Effects

/-! ## Faults and streams, step by step -/

/-- Settles O50: a word that is not ignored and has no effect has raised its fault. -/
theorem faultEntryIsPrecise : Obligations.FaultEntryIsPrecise := by
  intro s t w rest hs hp hstep ht
  have hexec : exec (decode w) (withPending rest s) = .next t := (step_of_word hp).symm.trans hstep
  obtain ⟨hfault, -⟩ | ⟨-, f, rfl⟩ | ⟨-, heffect⟩ := exec_decode_cases hexec
  · exact absurd hfault hs
  · exact ⟨rfl, causeCode_bounds f⟩
  · exact absurd ht (heffect.mode_ne_fault hs)

/-- What a step does to the streams (20_memory.md R52, R59). -/
theorem step_emits {s t : State} (h : step s = .next t) :
    Appends 1 s.pko t.pko ∧ t.txo = s.txo ∨ t.pko = s.pko ∧ Appends 11 s.txo t.txo := by
  have hnone : Appends 1 s.pko s.pko := appends_refl 1 s.pko
  match hp : s.pending with
  | [] =>
    cases (step_of_no_input hp).symm.trans h
    exact .inl ⟨hnone, rfl⟩
  | .reset :: rest =>
    cases (step_of_reset hp).symm.trans h
    exact .inl ⟨hnone, rfl⟩
  | .word w :: rest =>
    obtain ⟨-, rfl⟩ | ⟨-, f, rfl⟩ | ⟨-, heffect⟩ := exec_decode_cases ((step_of_word hp).symm.trans h)
    · exact .inl ⟨hnone, rfl⟩
    · exact .inl ⟨hnone, rfl⟩
    · exact heffect.emits

/-- Settles O56: a stream that gains bytes keeps those it had. -/
theorem streamsOnlyGrow : Obligations.StreamsOnlyGrow := by
  intro s t h
  have hreset : ∀ rest, s.pending = .reset :: rest → t.pko = s.pko ∧ t.txo = s.txo := by
    intro rest hp
    cases (step_of_reset hp).symm.trans h
    exact ⟨rfl, rfl⟩
  obtain ⟨⟨bytes, hpko, -⟩, htxo⟩ | ⟨hpko, ⟨bytes, htxo, -⟩⟩ := step_emits h
  all_goals
    refine ⟨?_, ?_, hreset⟩
    all_goals simp [hpko, htxo]

/-- Settles O57: the bounds of each operation's effect. -/
theorem stepEmitsAtMostElevenBytes : Obligations.StepEmitsAtMostElevenBytes := by
  intro s t h
  obtain ⟨⟨bytes, hpko, hlen⟩, htxo⟩ | ⟨hpko, ⟨bytes, htxo, hlen⟩⟩ := step_emits h
  · rw [hpko, htxo, List.length_append]
    exact ⟨by omega, by omega, .inr rfl⟩
  · rw [hpko, htxo, List.length_append]
    exact ⟨by omega, by omega, .inl rfl⟩

/-! ## What the units leave to each other (10_state.md R40) -/

/-- The state with what the Command Framer writes blotted out. -/
def outsideFramer (s : State) : State := { s with mode := .idle, txo := [], csum := 0, frem := 0 }

/-- The state with what the Chunker writes blotted out. -/
def outsideChunker (s : State) : State :=
  { s with mode := .idle, txo := [], csum := 0, frem := 0, ctotal := 0, crem := 0, cidx := 0 }

/-- Where the operation ends without a fault, none had been taken before, and the view of the state is
as it was. -/
def KeepsView (view : State → State) (op : State → Out) : Prop :=
  ∀ ⦃s t : State⦄, op s = .next t → t.mode ≠ .fault → s.mode ≠ .fault ∧ view t = view s

section Views

variable {view : State → State}

theorem KeepsView.andThen {f g : State → Out} (hf : KeepsView view f) (hg : KeepsView view g) :
    KeepsView view fun s => Machine.andThen (f s) g := by
  intro s t ht hfault
  obtain ⟨u, hu, hut⟩ := andThen_eq_next.mp ht
  obtain ⟨hu', hview⟩ := hg hut hfault
  obtain ⟨hs', hview'⟩ := hf hu hu'
  exact ⟨hs', hview.trans hview'⟩

theorem KeepsView.feed {α : Type} {op : α → State → Out} (h : ∀ x, KeepsView view (op x))
    (xs : List α) : KeepsView view (Machine.feed op xs) := by
  induction xs with
  | nil =>
    intro s t ht hfault
    cases ht
    exact ⟨hfault, rfl⟩
  | cons x xs ih => exact (h x).andThen ih

/-- An operation of the table keeps what its effect keeps. -/
theorem keepsView_of_effect {i : Instr} {m : Mode} {w : Word} (hm : admittingMode i = some m)
    (hw : encode i = [w]) (h : ∀ s t, Effect s i t → view t = view s) : KeepsView view (exec i) := by
  intro s t ht hfault
  obtain ⟨hs, rfl⟩ | ⟨-, f, rfl⟩ | ⟨hs, heffect⟩ := exec_cases hm hw ht
  · exact absurd hs hfault
  · exact absurd (raise_mode f w s) hfault
  · obtain ⟨hne, -⟩ := exec_eq_inMode hm hw
    exact ⟨hs ▸ hne, h s t heffect⟩

end Views

theorem execFrBegin_keepsView (c : Byte) (n : Half) : KeepsView outsideFramer (execFrBegin c n) :=
  keepsView_of_effect (i := .frBegin c n) rfl rfl fun _ _ h => by
    cases h
    rfl

theorem execFrData_keepsView (b : Byte) : KeepsView outsideFramer (execFrData b) :=
  keepsView_of_effect (i := .frData b) rfl rfl fun _ _ h => by
    cases h
    rfl

theorem execChBegin_keepsView (size : Half) : KeepsView outsideChunker (execChBegin size) :=
  keepsView_of_effect (i := .chBegin size) rfl rfl fun _ _ h => by
    cases h
    rfl

theorem execChData_keepsView (b : Byte) : KeepsView outsideChunker (execChData b) :=
  keepsView_of_effect (i := .chData b) rfl rfl fun _ _ h => by
    cases h
    rfl

theorem sendFrame_eq_next {c : Byte} {args : List Byte} {s t : State}
    (h : sendFrame c args s = .next t) :
    andThen (execFrBegin c (BitVec.ofNat 16 args.length) s) (feed execFrData args) = .next t := by
  rw [sendFrame] at h
  split_ifs at h
  exact h

theorem execAnim_eq_next {p : List Byte} {s t : State} (h : execAnim p s = .next t) :
    andThen (execChBegin (BitVec.ofNat 16 p.length) s) (feed execChData p) = .next t := by
  rw [execAnim] at h
  split_ifs at h
  exact h

theorem sendFrame_keepsView (c : Byte) (args : List Byte) :
    KeepsView outsideFramer (sendFrame c args) :=
  fun _ _ ht => (execFrBegin_keepsView c _).andThen (.feed execFrData_keepsView args)
    (sendFrame_eq_next ht)

theorem execAnim_keepsView (p : List Byte) : KeepsView outsideChunker (execAnim p) :=
  fun _ _ ht => (execChBegin_keepsView _).andThen (.feed execChData_keepsView p) (execAnim_eq_next ht)

/-- The registers that the framer leaves alone, one by one. -/
theorem registers_of_outsideFramer {s t : State} (h : outsideFramer t = outsideFramer s) :
    t.fcause = s.fcause ∧ t.fword = s.fword ∧ t.pending = s.pending ∧ t.variant = s.variant ∧
    t.psize = s.psize ∧ t.width = s.width ∧ t.acc = s.acc ∧ t.nbits = s.nbits ∧ t.pko = s.pko ∧
    t.ctotal = s.ctotal ∧ t.crem = s.crem ∧ t.cidx = s.cidx := by
  simp only [outsideFramer, State.mk.injEq] at h
  simp only [h, and_self]

/-- The registers that the chunker leaves alone, one by one. -/
theorem registers_of_outsideChunker {s t : State} (h : outsideChunker t = outsideChunker s) :
    t.fcause = s.fcause ∧ t.fword = s.fword ∧ t.pending = s.pending ∧ t.variant = s.variant ∧
    t.psize = s.psize ∧ t.width = s.width ∧ t.acc = s.acc ∧ t.nbits = s.nbits ∧ t.pko = s.pko := by
  simp only [outsideChunker, State.mk.injEq] at h
  simp only [h, and_self]

/-- An operation of the table that ends without a fault has had its effect. -/
theorem effect_of_next {i : Instr} {m : Mode} {w : Word} {s t : State}
    (hm : admittingMode i = some m) (hw : encode i = [w]) (ht : exec i s = .next t)
    (hfault : t.mode ≠ .fault) : s.mode = m ∧ Effect s i t := by
  obtain ⟨hs, rfl⟩ | ⟨-, f, rfl⟩ | heffect := exec_cases hm hw ht
  · exact absurd hs hfault
  · exact absurd (raise_mode f w s) hfault
  · exact heffect

/-- Settles O52: the packer's operations and `CH.DATA` by their effects, the rest by the view of the
state that the framer or the chunker keeps. -/
theorem operationsKeepOtherRegisters : Obligations.OperationsKeepOtherRegisters := by
  intro i s t ht hfault
  have hframer (c : Byte) (args : List Byte) (h : sendFrame c args s = .next t) :=
    registers_of_outsideFramer (sendFrame_keepsView c args h hfault).2
  cases i with
  | pkCfg v k =>
    obtain ⟨-, heffect⟩ := effect_of_next rfl rfl ht hfault
    cases heffect
    exact ⟨rfl, rfl, rfl, rfl, rfl, rfl, rfl, rfl, rfl, packState_opened_pko v k _ s⟩
  | pkPush i =>
    obtain ⟨-, heffect⟩ := effect_of_next rfl rfl ht hfault
    cases heffect
    exact ⟨rfl, rfl, rfl, rfl, rfl, rfl, rfl, rfl, rfl, rfl, rfl, rfl, rfl⟩
  | pkEnd =>
    obtain ⟨-, heffect⟩ := effect_of_next rfl rfl ht hfault
    cases heffect
    exact ⟨rfl, rfl, rfl, rfl, rfl, rfl, rfl, rfl, rfl, rfl, rfl, rfl⟩
  | chData b =>
    obtain ⟨-, heffect⟩ := effect_of_next rfl rfl ht hfault
    cases heffect
    exact ⟨rfl, rfl, rfl, rfl, rfl, rfl, rfl, rfl, rfl, rfl⟩
  | frBegin c n => exact registers_of_outsideFramer (execFrBegin_keepsView c n ht hfault).2
  | frData b => exact registers_of_outsideFramer (execFrData_keepsView b ht hfault).2
  | chBegin size => exact registers_of_outsideChunker (execChBegin_keepsView size ht hfault).2
  | illegal w =>
    obtain ⟨hs, rfl⟩ | ⟨-, rfl⟩ := execIllegal_cases ht
    · exact absurd hs hfault
    · exact absurd (raise_mode .illegalOp w s) hfault
  | wireFrame c args => exact hframer c args ht
  | wirePacket size index slice => exact hframer _ (packetArgs size index slice) ht
  | setBrightness level => exact hframer _ [level] ht
  | setBoxMode mode visual submode => exact hframer _ [mode, visual, submode] ht
  | setRgb r g b => exact hframer _ [r, g, b] ht
  | drawPicture subFrame => exact hframer _ (Config.picLead ++ subFrame) ht
  | anim payload => exact registers_of_outsideChunker (execAnim_keepsView payload ht hfault).2

/-! ## The variant (60_exceptions.md R216) -/

/-- The same state with another variant in the register. -/
def withVariant (v : Variant) (s : State) : State := { s with variant := v }

/-- The operation does the same with another variant in the register. -/
def IgnoresVariant (op : State → Out) : Prop :=
  ∀ ⦃v : Variant⦄ ⦃s t : State⦄, op s = .next t → op (withVariant v s) = .next (withVariant v t)

theorem IgnoresVariant.andThen {f g : State → Out} (hf : IgnoresVariant f) (hg : IgnoresVariant g) :
    IgnoresVariant fun s => Machine.andThen (f s) g := by
  intro v s t ht
  obtain ⟨u, hu, hut⟩ := andThen_eq_next.mp ht
  exact andThen_eq_next.mpr ⟨withVariant v u, hf hu, hg hut⟩

theorem IgnoresVariant.feed {α : Type} {op : α → State → Out} (h : ∀ x, IgnoresVariant (op x))
    (xs : List α) : IgnoresVariant (Machine.feed op xs) := by
  induction xs with
  | nil =>
    intro v s t ht
    cases ht
    rfl
  | cons x xs ih => exact (h x).andThen ih

/-- The checks of the template do not look at the variant. -/
theorem IgnoresVariant.inMode {m : Mode} {w : Word} {body : State → Out} (h : IgnoresVariant body) :
    IgnoresVariant (inMode m w body) := by
  intro v s t ht
  rw [Machine.inMode] at ht ⊢
  have hmode : (withVariant v s).mode = s.mode := rfl
  rw [hmode]
  split_ifs at ht ⊢
  · cases ht
    rfl
  · exact h ht
  · cases ht
    rfl

theorem execFrBegin_ignoresVariant (c : Byte) (n : Half) : IgnoresVariant (execFrBegin c n) := by
  refine .inMode fun v s t ht => ?_
  by_cases hlarge : frameTooLarge n = true
  · simp only [if_pos hlarge] at ht ⊢
    cases ht
    rfl
  · have hn : n.toNat ≤ 65532 := by
      rw [frameTooLarge_iff] at hlarge
      omega
    simp only [if_neg hlarge, frameOpen_eq c _ _ hn] at ht ⊢
    cases ht
    rfl

theorem execFrData_ignoresVariant (b : Byte) : IgnoresVariant (execFrData b) := by
  refine .inMode fun v s t ht => ?_
  have hfrem := frem_pos_of_takeArgument ht
  cases (takeArgument_eq b s hfrem).symm.trans ht
  exact takeArgument_eq b (withVariant v s) hfrem

theorem execChBegin_ignoresVariant (size : Half) : IgnoresVariant (execChBegin size) := by
  refine .inMode fun v s t ht => ?_
  split_ifs at ht ⊢ with hlarge h0
  · cases ht
    rfl
  · cases ht
    rfl
  · have hpos : 1 ≤ size.toNat := toNat_pos_of_ne_zero h0
    rw [openChunks, chunkOpen_eq _ hpos] at ht ⊢
    cases ht
    rfl

theorem execChData_ignoresVariant (b : Byte) : IgnoresVariant (execChData b) := by
  refine .inMode fun v s t ht => ?_
  obtain ⟨hinside, hcrem⟩ | ⟨hlast, hpayload⟩ | ⟨hlast, hmore, hidx⟩ := counts_of_takePayloadByte ht
  · cases (takePayloadByte_inside b s hinside hcrem).symm.trans ht
    exact takePayloadByte_inside b (withVariant v s) hinside hcrem
  · cases (takePayloadByte_last b s hlast hpayload).symm.trans ht
    exact takePayloadByte_last b (withVariant v s) hlast hpayload
  · cases (takePayloadByte_next b s hlast hmore hidx).symm.trans ht
    exact takePayloadByte_next b (withVariant v s) hlast hmore hidx

theorem execIllegal_ignoresVariant (w : Word) : IgnoresVariant (execIllegal w) := by
  intro v s t ht
  obtain ⟨hs, rfl⟩ | ⟨hs, rfl⟩ := execIllegal_cases ht
  · exact if_pos hs
  · exact if_neg hs

theorem sendFrame_ignoresVariant (c : Byte) (args : List Byte) :
    IgnoresVariant (sendFrame c args) := by
  intro v s t ht
  rw [sendFrame] at ht ⊢
  split_ifs at ht ⊢
  exact (execFrBegin_ignoresVariant c _).andThen (.feed execFrData_ignoresVariant args) ht

theorem execAnim_ignoresVariant (p : List Byte) : IgnoresVariant (execAnim p) := by
  intro v s t ht
  rw [execAnim] at ht ⊢
  split_ifs at ht ⊢
  exact (execChBegin_ignoresVariant _).andThen (.feed execChData_ignoresVariant p) ht

/-- Settles O53: none of the framer's and the chunker's operations reads the register. -/
theorem framingIgnoresVariant : Obligations.FramingIgnoresVariant := by
  intro i s t v hcfg hpush hend ht
  cases i with
  | pkCfg v k => exact absurd rfl (hcfg v k)
  | pkPush i => exact absurd rfl (hpush i)
  | pkEnd => exact absurd rfl hend
  | frBegin c n => exact execFrBegin_ignoresVariant c n ht
  | frData b => exact execFrData_ignoresVariant b ht
  | chBegin size => exact execChBegin_ignoresVariant size ht
  | chData b => exact execChData_ignoresVariant b ht
  | illegal w => exact execIllegal_ignoresVariant w ht
  | wireFrame c args => exact sendFrame_ignoresVariant c args ht
  | wirePacket size index slice => exact sendFrame_ignoresVariant _ (packetArgs size index slice) ht
  | setBrightness level => exact sendFrame_ignoresVariant _ [level] ht
  | setBoxMode mode visual submode => exact sendFrame_ignoresVariant _ [mode, visual, submode] ht
  | setRgb r g b => exact sendFrame_ignoresVariant _ [r, g, b] ht
  | drawPicture subFrame => exact sendFrame_ignoresVariant _ (Config.picLead ++ subFrame) ht
  | anim payload => exact execAnim_ignoresVariant payload ht

end Sys2Proof.Proofs

/-! PROOF. Runs: from a state that meets the invariant every word is taken, and what the streams hold
afterwards (20_memory.md R68, 70_reset_and_hazards.md R255). -/

namespace Sys2Proof.Proofs

open Sys2Proof Sys2Proof.Machine

/-! ## No run stops (10_state.md R42) -/

/-- A word is ignored, or raises its fault, or has its effect; the events still to come stay. -/
theorem exec_decode_steps {s : State} (hinv : Inv s) (w : Word) :
    ∃ t, exec (decode w) s = .next t ∧ t.pending = s.pending := by
  by_cases hs : s.mode = .fault
  · exact ⟨s, exec_decode_of_fault w hs, rfl⟩
  · cases hf : faultOf w s with
    | some f => exact ⟨_, exec_decode_of_faultOf_eq_some hf, rfl⟩
    | none =>
      obtain ⟨t, hexec, ht⟩ := exec_decode_of_faultOf_eq_none hinv hs hf
      exact ⟨t, hexec, ht.pending⟩

/-- Settles O55: waiting and reset are steps in every state, a word in every state that meets the
invariant. -/
theorem invariantStatesNeverStop : Obligations.InvariantStatesNeverStop := by
  intro s hs
  match hp : s.pending with
  | [] => exact ⟨_, step_of_no_input hp⟩
  | .reset :: rest => exact ⟨_, step_of_reset hp⟩
  | .word w :: rest =>
    obtain ⟨t, hexec, -⟩ := exec_decode_steps (inv_withPending hs rest) w
    exact ⟨t, (step_of_word hp).trans hexec⟩

theorem feed_decoded_steps {s : State} (hinv : Inv s) (ws : List Word) :
    ∃ t, feed (fun w => exec (decode w)) ws s = .next t ∧ t.pending = s.pending ∧ Inv t := by
  induction ws generalizing s with
  | nil => exact ⟨s, rfl, rfl, hinv⟩
  | cons w ws ih =>
    obtain ⟨u, hu, hpending⟩ := exec_decode_steps hinv w
    obtain ⟨t, ht, hpending', hinv'⟩ := ih (exec_keepsInv (decode w) hinv hu)
    exact ⟨t, andThen_eq_next.mpr ⟨u, hu, ht⟩, hpending'.trans hpending, hinv'⟩

/-- The words offered to the machine right after reset, one a step. -/
theorem run_from_reset (ws : List Word) :
    Sys2Proof.core.run ws.length (offerWords ws State.reset) =
      feed (fun w => exec (decode w)) ws State.reset :=
  run_words (s := offerWords ws State.reset) (rest := []) rfl

theorem runOutcome_eq_faulted_iff (s : State) : runOutcome s = .faulted ↔ s.mode = .fault := by
  rw [runOutcome]
  cases s.mode <;> simp

theorem runOutcome_eq_finished_iff (s : State) : runOutcome s = .finished ↔ s.mode = .idle := by
  rw [runOutcome]
  cases s.mode <;> simp

/-- A cause stands in `FCAUSE` in `FAULT` and nowhere else. -/
theorem mode_eq_fault_iff {s : State} (hinv : Inv s) : s.mode = .fault ↔ s.fcause ≠ 0 := by
  constructor
  · intro hs hzero
    obtain ⟨hpos, -⟩ := hinv.faultCode hs
    rw [hzero] at hpos
    exact absurd hpos (by decide)
  · intro hcause
    by_contra hs
    exact hcause (hinv.noFault hs).1

/-- Settles O60: every word of the run is taken and keeps the invariant, which says when a cause is
written. -/
theorem everyRunFromResetIsPlayed : Obligations.EveryRunFromResetIsPlayed := by
  intro ws
  obtain ⟨t, ht, hpending, hinv⟩ := feed_decoded_steps inv_reset ws
  exact ⟨t, (run_from_reset ws).trans ht, hpending, hinv,
    (runOutcome_eq_faulted_iff t).trans (mode_eq_fault_iff hinv)⟩

/-! ## Whole frames and the open one (20_memory.md R68) -/

theorem wholeFrames_nil : WholeFrames [] := ⟨[], by simp, rfl⟩

theorem wholeFrames_append_frame {bytes : List Byte} (h : WholeFrames bytes) (c : Byte)
    {args : List Byte} (hargs : args.length ≤ 65532) : WholeFrames (bytes ++ frameBytes c args) := by
  obtain ⟨fs, hfs, rfl⟩ := h
  refine ⟨fs ++ [(c, args)], List.forall_mem_append.mpr ⟨hfs, by simpa using hargs⟩, ?_⟩
  rw [List.map_append, List.flatten_append, List.map_singleton, List.flatten_singleton]

section OpenFrame

variable {c b : Byte} {s t : State}

/-- A byte that is not the frame's last. -/
theorem oneOpenFrame_take (h : OneOpenFrame c s) (hmore : 2 ≤ s.frem.toNat)
    (htxo : t.txo = s.txo ++ [b]) (hcsum : t.csum = BitVec.ofNat 16 (s.csum.toNat + b.toNat))
    (hfrem : t.frem = BitVec.ofNat 16 (s.frem.toNat - 1)) : OneOpenFrame c t := by
  obtain ⟨done, args, hdone, hpos, hfits, hout, hsum⟩ := h
  have hleft : t.frem.toNat = s.frem.toNat - 1 := by rw [hfrem, ofNat16_toNat (by omega)]
  have hlength : (args ++ [b]).length + t.frem.toNat = args.length + s.frem.toNat := by
    rw [List.length_append, List.length_singleton, hleft]
    omega
  refine ⟨done, args ++ [b], hdone, by omega, by omega, ?_, ?_⟩
  · rw [hlength, htxo, hout, List.append_assoc _ args]
  · rw [hlength, hcsum, BitVec.toNat_ofNat, hsum, byteSum_append, Nat.mod_add_mod, Nat.add_assoc]
    rfl

/-- The frame's last byte and the trailer make it whole. -/
theorem oneOpenFrame_close (h : OneOpenFrame c s) (hlast : s.frem.toNat = 1) (b : Byte) :
    WholeFrames (s.txo ++ [b] ++ frameTrailer ((s.csum.toNat + b.toNat) % 65536)) := by
  obtain ⟨done, args, hdone, -, hfits, hout, hsum⟩ := h
  have hlength : args.length + s.frem.toNat = (args ++ [b]).length := by
    rw [hlast, List.length_append, List.length_singleton]
  have hcs : (s.csum.toNat + b.toNat) % 65536 = checksum c (args ++ [b]) := by
    rw [checksum_eq_frameSum, frameSum_append_one, hsum, Nat.mod_add_mod, hlength]
    rfl
  have hbytes : s.txo ++ [b] ++ frameTrailer ((s.csum.toNat + b.toNat) % 65536) =
      done ++ frameBytes c (args ++ [b]) := by
    rw [hout, hcs, hlength, frameBytes]
    simp only [List.append_assoc]
  rw [hbytes]
  exact wholeFrames_append_frame hdone c (hlength ▸ hfits)

/-- The header and the lead of a packet with `m` bytes open its frame. -/
theorem oneOpenFrame_of_packet {bytes : List Byte} {size index m : Nat} (h : WholeFrames bytes)
    (hpos : 1 ≤ m) (hle : m ≤ 200)
    (htxo : t.txo = bytes ++ frameHeader Config.cmdAnim (m + 3) ++ packetLead size index)
    (hcsum : t.csum = BitVec.ofNat 16
      (byteSum (le16 (m + 6)) + 0x49 + byteSum (packetLead size index)))
    (hfrem : t.frem = BitVec.ofNat 16 m) : OneOpenFrame Config.cmdAnim t := by
  have hleft : t.frem.toNat = m := by rw [hfrem, ofNat16_toNat (by omega)]
  have hlength : (packetLead size index).length + t.frem.toNat = m + 3 := by
    rw [packetLead_length, hleft, Nat.add_comm]
  refine ⟨bytes, packetLead size index, h, by omega, by omega, ?_, ?_⟩
  · rw [hlength, htxo]
  · rw [hlength, hcsum, BitVec.toNat_ofNat]
    rfl

end OpenFrame

/-! ## What `TXO` is, mode by mode -/

section TxoShape

variable {s t : State}

theorem txoShape_of_closed (hm : s.mode = .idle ∨ s.mode = .pack) :
    TxoShape s ↔ WholeFrames s.txo := by
  obtain hm | hm := hm <;> simp only [TxoShape, hm]

theorem txoShape_of_frame (hm : s.mode = .frame) : TxoShape s ↔ ∃ c, OneOpenFrame c s := by
  simp only [TxoShape, hm]

theorem txoShape_of_chunk (hm : s.mode = .chunk) :
    TxoShape s ↔ OneOpenFrame Config.cmdAnim s := by
  simp only [TxoShape, hm]

theorem txoShape_of_fault (hm : s.mode = .fault) : TxoShape s := by
  simp only [TxoShape, hm]

/-- The packer's operations leave `TXO` alone, and neither open nor close a frame. -/
theorem txoShape_of_txo_eq (hs : s.mode = .idle ∨ s.mode = .pack)
    (ht : t.mode = .idle ∨ t.mode = .pack) (htxo : t.txo = s.txo) (h : TxoShape s) : TxoShape t := by
  rw [txoShape_of_closed hs, ← htxo] at h
  exact (txoShape_of_closed ht).mpr h

theorem execFrBegin_keeps_txoShape {c : Byte} {n : Half} (hm : s.mode = .idle) (h : TxoShape s)
    (ht : execFrBegin c n s = .next t) : TxoShape t := by
  have hwhole := (txoShape_of_closed (.inl hm)).mp h
  by_cases hn : n.toNat ≤ 65532
  · cases (execFrBegin_of_fits c hm hn).symm.trans ht
    by_cases h0 : n.toNat = 0
    · have hnone : n.toNat = ([] : List Byte).length := h0
      rw [hnone, txoShape_of_closed (.inl (frameState_mode_whole c [] s)), frameState_txo_whole]
      exact wholeFrames_append_frame hwhole c (by simp)
    · have hpos : ([] : List Byte).length < n.toNat := Nat.pos_of_ne_zero h0
      have hleft := frameState_frem_toNat (c := c) (given := []) (s := s) hn
      have hlength : ([] : List Byte).length + (frameState c n.toNat [] s).frem.toNat = n.toNat := by
        rw [hleft, List.length_nil]
        omega
      rw [txoShape_of_frame (frameState_mode_open hpos)]
      refine ⟨c, s.txo, [], hwhole, by omega, by omega, ?_, ?_⟩
      · rw [hlength, frameState_txo_open hpos]
      · rw [hlength]
        exact BitVec.toNat_ofNat _ _
  · cases (execFrBegin_of_tooLarge c hm (by omega)).symm.trans ht
    exact txoShape_of_fault rfl

theorem execFrData_keeps_txoShape {b : Byte} (hm : s.mode = .frame) (h : TxoShape s)
    (ht : execFrData b s = .next t) : TxoShape t := by
  obtain ⟨c, hopen⟩ := (txoShape_of_frame hm).mp h
  rw [execFrData, inMode_own (by decide) hm] at ht
  have hfrem := frem_pos_of_takeArgument ht
  cases (takeArgument_eq b s hfrem).symm.trans ht
  by_cases hlast : s.frem.toNat = 1
  · rw [txoShape_of_closed (.inl (if_pos hlast))]
    simp only [hlast, Nat.sub_self, closing_zero]
    exact oneOpenFrame_close hopen hlast b
  · rw [txoShape_of_frame ((if_neg hlast).trans hm)]
    refine ⟨c, oneOpenFrame_take (b := b) hopen (by omega) ?_ rfl rfl⟩
    rw [closing_pos _ (by omega), List.append_nil]

theorem execChBegin_keeps_txoShape {size : Half} (hm : s.mode = .idle) (h : TxoShape s)
    (ht : execChBegin size s = .next t) : TxoShape t := by
  have hwhole := (txoShape_of_closed (.inl hm)).mp h
  rw [execChBegin, inMode_own (by decide) hm] at ht
  split_ifs at ht with hlarge h0
  · cases ht
    exact txoShape_of_fault rfl
  · cases ht
    exact h
  · have hpos : 1 ≤ size.toNat := toNat_pos_of_ne_zero h0
    rw [openChunks, chunkOpen_eq _ hpos] at ht
    cases ht
    rw [txoShape_of_chunk rfl]
    exact oneOpenFrame_of_packet (m := min 200 size.toNat) hwhole (by omega) (Nat.min_le_left _ _)
      rfl rfl rfl

theorem execChData_keeps_txoShape {b : Byte} (hm : s.mode = .chunk) (h : TxoShape s)
    (ht : execChData b s = .next t) : TxoShape t := by
  have hopen := (txoShape_of_chunk hm).mp h
  rw [execChData, inMode_own (by decide) hm] at ht
  obtain ⟨hinside, hcrem⟩ | ⟨hlast, hpayload⟩ | ⟨hlast, hmore, hidx⟩ := counts_of_takePayloadByte ht
  · cases (takePayloadByte_inside b s hinside hcrem).symm.trans ht
    refine (txoShape_of_chunk ?_).mpr (oneOpenFrame_take hopen hinside rfl rfl rfl)
    exact hm
  · cases (takePayloadByte_last b s hlast hpayload).symm.trans ht
    exact (txoShape_of_closed (.inl rfl)).mpr (oneOpenFrame_close hopen hlast b)
  · cases (takePayloadByte_next b s hlast hmore hidx).symm.trans ht
    refine (txoShape_of_chunk ?_).mpr (oneOpenFrame_of_packet (m := min 200 (s.crem.toNat - 1))
      (oneOpenFrame_close hopen hlast b) (by omega) (Nat.min_le_left _ _) rfl rfl rfl)
    exact hm

/-- Every word leaves `TXO` in its shape. -/
theorem exec_decode_keeps_txoShape {w : Word} (h : TxoShape s)
    (ht : exec (decode w) s = .next t) : TxoShape t := by
  obtain ⟨-, rfl⟩ | ⟨-, f, rfl⟩ | ⟨hm, heffect⟩ := exec_decode_cases ht
  · exact h
  · exact txoShape_of_fault rfl
  · generalize decode w = i at ht hm heffect
    have hmode {m : Mode} (h : some m = some s.mode) : s.mode = m := (Option.some.inj h).symm
    cases i
    case pkCfg v k =>
      cases heffect
      exact txoShape_of_txo_eq (.inl (hmode hm)) (.inr rfl) rfl h
    case pkPush i =>
      cases heffect
      exact txoShape_of_txo_eq (.inr (hmode hm)) (.inr (hmode hm)) rfl h
    case pkEnd =>
      cases heffect
      exact txoShape_of_txo_eq (.inr (hmode hm)) (.inl rfl) rfl h
    case frBegin c n => exact execFrBegin_keeps_txoShape (hmode hm) h ht
    case frData b => exact execFrData_keeps_txoShape (hmode hm) h ht
    case chBegin size => exact execChBegin_keeps_txoShape (hmode hm) h ht
    case chData b => exact execChData_keeps_txoShape (hmode hm) h ht
    all_goals cases hm

end TxoShape

/-- Settles O58: the framer's and the chunker's operations open, continue or close the one open frame;
every other word leaves `TXO` alone. -/
theorem txoStaysWholeFramesAndOneOpen : Obligations.TxoStaysWholeFramesAndOneOpen :=
  fun s _ _ rest _ h hp ht =>
    exec_decode_keeps_txoShape (s := withPending rest s) h ((step_of_word hp).symm.trans ht)

theorem feed_decoded_keeps_txoShape {ws : List Word} {s t : State} (h : TxoShape s)
    (ht : feed (fun w => exec (decode w)) ws s = .next t) : TxoShape t := by
  induction ws generalizing s with
  | nil =>
    cases ht
    exact h
  | cons w ws ih =>
    obtain ⟨u, hu, hut⟩ := andThen_eq_next.mp ht
    exact ih (exec_decode_keeps_txoShape h hu) hut

/-! ## What `PKO` is, mode by mode (40_packer.md R118, R119) -/

section PkoShape

variable {r : PackRecord} {s t : State}

theorem pkoShape_of_closed (hm : s.mode = .idle ∨ s.mode = .frame ∨ s.mode = .chunk) :
    PkoShape r s ↔ PkoClosed r s := by
  obtain hm | hm | hm := hm <;> simp only [PkoShape, hm]

theorem pkoShape_of_pack (hm : s.mode = .pack) :
    PkoShape r s ↔ ∃ im w done, r.opened = some im ∧ im.Accepted w ∧ im.OpenIn w s ∧
      WholeImages r.closed done ∧ s.pko = done ++ im.bytesSoFar w := by
  simp only [PkoShape, hm]

/-- A fault leaves `PKO` as it was, inside a transaction or outside. -/
theorem pkoShape_raise (hs : s.mode ≠ .fault) (h : PkoShape r s) (f : Cause) (w : Word) :
    PkoShape r (raise f w s) := by
  cases hm : s.mode with
  | fault => exact absurd hm hs
  | pack =>
    obtain ⟨im, w, done, hopened, haccepted, -, hdone, hpko⟩ := (pkoShape_of_pack hm).mp h
    exact .inr ⟨im, w, done, hopened, haccepted, hdone, hpko⟩
  | idle => exact .inl ((pkoShape_of_closed (.inl hm)).mp h)
  | frame => exact .inl ((pkoShape_of_closed (.inr (.inl hm))).mp h)
  | chunk => exact .inl ((pkoShape_of_closed (.inr (.inr hm))).mp h)

/-- The framer and the chunker leave `PKO` alone. -/
theorem pkoShape_of_pko_eq (hs : s.mode = .idle ∨ s.mode = .frame ∨ s.mode = .chunk)
    (ht : t.mode = .idle ∨ t.mode = .frame ∨ t.mode = .chunk) (hpko : t.pko = s.pko)
    (h : PkoShape r s) : PkoShape r t := by
  rw [pkoShape_of_closed hs, PkoClosed, ← hpko] at h
  exact (pkoShape_of_closed ht).mpr h

/-- The state inside a transaction is the one that R118 gives for it. -/
theorem eq_packState {im : Image} {w : Nat} {done : List Byte} (hm : s.mode = .pack)
    (hopen : im.OpenIn w s) (hpko : s.pko = done ++ im.bytesSoFar w) :
    s = packState im w { s with pko := done } := by
  obtain ⟨hvariant, hpsize, hwidth, hnbits, hacc⟩ := hopen
  rw [packState, ofNat_eq_of_toNat_eq hpsize, ofNat_eq_of_toNat_eq hwidth,
    ofNat_eq_of_toNat_eq hnbits, ofNat_eq_of_toNat_eq hacc, ← hvariant, ← hpko, ← hm]

theorem pkoShape_packState {im : Image} {w : Nat} (h : im.Accepted w) (hopened : r.opened = some im)
    (hdone : WholeImages r.closed s.pko) : PkoShape r (packState im w s) :=
  ⟨im, w, s.pko, hopened, h, openIn_packState h s, hdone, rfl⟩

theorem execPkCfg_keeps_pkoShape {v : Variant} {k : Half} (hm : s.mode = .idle) (h : PkoShape r s)
    (heffect : Effect s (.pkCfg v k) t) : PkoShape (r.take (.pkCfg v k)) t := by
  obtain ⟨-, hdone⟩ := (pkoShape_of_closed (.inl hm)).mp h
  cases heffect with
  | pkCfg hw => exact pkoShape_packState ⟨hw, by simp⟩ rfl hdone

theorem execPkPush_keeps_pkoShape {i : Half} (hm : s.mode = .pack) (h : PkoShape r s)
    (ht : execPkPush i s = .next t) (hfault : t.mode ≠ .fault) :
    PkoShape (r.take (.pkPush i)) t := by
  obtain ⟨im, w, done, hopened, haccepted, hopen, hdone, hpko⟩ := (pkoShape_of_pack hm).mp h
  obtain ⟨closed, opened⟩ := r
  obtain rfl : opened = some im := hopened
  rw [eq_packState hm hopen hpko] at ht
  by_cases hi : i.toNat < im.size.toNat
  · cases (execPkPush_packState haccepted hi _).symm.trans ht
    have hmore : Image.Accepted { im with indices := im.indices ++ [i] } w :=
      ⟨haccepted.1, List.forall_mem_append.mpr
        ⟨haccepted.2, List.forall_mem_singleton.mpr hi⟩⟩
    exact pkoShape_packState hmore rfl hdone
  · cases (execPkPush_packState_outOfRange haccepted (Nat.not_lt.mp hi) _).symm.trans ht
    exact absurd (raise_mode _ _ _) hfault

theorem execPkEnd_keeps_pkoShape (hm : s.mode = .pack) (h : PkoShape r s)
    (ht : execPkEnd s = .next t) : PkoShape (r.take .pkEnd) t := by
  obtain ⟨im, w, done, hopened, haccepted, hopen, hdone, hpko⟩ := (pkoShape_of_pack hm).mp h
  obtain ⟨closed, opened⟩ := r
  obtain rfl : opened = some im := hopened
  have hpacked := Image.packed_of_accepted haccepted
  rw [eq_packState hm hopen hpko, execPkEnd_packState haccepted hpacked] at ht
  cases ht
  exact (pkoShape_of_closed (.inl rfl)).mpr ⟨rfl, hdone.append_one hpacked⟩

/-- No operation is admitted in `FAULT` (60_exceptions.md R219). -/
theorem admittingMode_ne_fault {i : Instr} {m : Mode} (h : admittingMode i = some m) :
    m ≠ .fault := by
  rintro rfl
  cases i <;> cases h

/-- Every word that is taken leaves `PKO` in the shape of the record with the word; one that faults or
is ignored, in the shape it had. -/
theorem exec_decode_keeps_pkoShape {w : Word} (h : PkoShape r s)
    (ht : exec (decode w) s = .next t) :
    PkoShape (if t.mode = .fault then r else r.take (decode w)) t := by
  obtain ⟨hs, rfl⟩ | ⟨hs, f, rfl⟩ | ⟨hm, heffect⟩ := exec_decode_cases ht
  · rwa [if_pos hs]
  · rw [if_pos (raise_mode f w s)]
    exact pkoShape_raise hs h f w
  · generalize decode w = i at ht hm heffect ⊢
    have hmode {m : Mode} (h : some m = some s.mode) : s.mode = m := (Option.some.inj h).symm
    have hfault := heffect.mode_ne_fault (admittingMode_ne_fault hm)
    rw [if_neg hfault]
    cases i
    case pkCfg v k => exact execPkCfg_keeps_pkoShape (hmode hm) h heffect
    case pkPush i => exact execPkPush_keeps_pkoShape (hmode hm) h ht hfault
    case pkEnd => exact execPkEnd_keeps_pkoShape (hmode hm) h ht
    case frBegin c n =>
      cases heffect with
      | frBegin _ hmode' => exact pkoShape_of_pko_eq (.inl (hmode hm)) (hmode'.imp_right .inl) rfl h
    case frData b =>
      cases heffect with
      | frData _ hmode' =>
        exact pkoShape_of_pko_eq (.inr (.inl (hmode hm))) (hmode'.imp_right .inl) rfl h
    case chBegin size =>
      cases heffect with
      | chBegin _ hmode' => exact pkoShape_of_pko_eq (.inl (hmode hm)) (hmode'.imp_right .inr) rfl h
    case chData b =>
      cases heffect with
      | chData _ hmode' =>
        exact pkoShape_of_pko_eq (.inr (.inr (hmode hm))) (hmode'.imp_right .inr) rfl h
    all_goals cases hm

end PkoShape

/-- Without a fault at the end there was none on the way, and every word is in the record. -/
theorem feed_decoded_keeps_pkoShape {ws : List Word} {r : PackRecord} {s t : State}
    (h : PkoShape r s) (ht : feed (fun w => exec (decode w)) ws s = .next t)
    (hfault : t.mode ≠ .fault) : PkoShape (ws.foldl (fun r w => r.take (decode w)) r) t := by
  induction ws generalizing r s with
  | nil =>
    cases ht
    exact h
  | cons w ws ih =>
    obtain ⟨u, hu, hut⟩ := andThen_eq_next.mp ht
    have hu' : u.mode ≠ .fault := by
      intro hu'
      cases (feed_of_fault (fun w _ => exec_decode_of_fault w) ws hu').symm.trans hut
      exact hfault hu'
    have hshape := exec_decode_keeps_pkoShape h hu
    rw [if_neg hu'] at hshape
    exact ih hshape hut

theorem pkoShape_reset : PkoShape PackRecord.empty State.reset :=
  (pkoShape_of_closed (.inl rfl)).mpr ⟨rfl, (wholeImages_nil _).mpr rfl⟩

theorem run_pkoShape {ws : List Word} {t : State}
    (ht : Sys2Proof.core.run ws.length (offerWords ws State.reset) = .next t)
    (hfault : t.mode ≠ .fault) : PkoShape (packRecord ws) t :=
  feed_decoded_keeps_pkoShape pkoShape_reset ((run_from_reset ws).symm.trans ht) hfault

/-- Settles O59: the shape holds of reset and of every word, so of every run, and in `IDLE` no
transaction and no frame is open. -/
theorem finishedRunOutputsAreWhole : Obligations.FinishedRunOutputsAreWhole := by
  refine ⟨pkoShape_reset,
    fun r s t w rest h hp ht => exec_decode_keeps_pkoShape (s := withPending rest s) h
      ((step_of_word hp).symm.trans ht),
    fun ws t ht hfault => run_pkoShape ht hfault, fun ws t ht hfinished => ?_⟩
  have hidle := (runOutcome_eq_finished_iff t).mp hfinished
  have hframes : TxoShape t := feed_decoded_keeps_txoShape
    ((txoShape_of_closed (.inl rfl)).mpr wholeFrames_nil) ((run_from_reset ws).symm.trans ht)
  have himages : PkoShape (packRecord ws) t := run_pkoShape ht (by simp [hidle])
  obtain ⟨hopened, hclosed⟩ := (pkoShape_of_closed (.inl hidle)).mp himages
  exact ⟨(txoShape_of_closed (.inl hidle)).mp hframes, hclosed, hopened⟩

end Sys2Proof.Proofs
